-- ==== Sys2Proof/Word.lean ====
section
/-! DEFINITION. The word types of the block. The spec's values are all unsigned (R13). -/

namespace Sys2Proof

/-- A command word: every command is one 64-bit word (R75). -/
abbrev CmdWord := BitVec 64

/-- A cell index, a refresh count or an end pulse count: IDX_BITS = 16 (R10). -/
abbrev Index := BitVec 16

/-- A channel field: 8 bits of storage, of which the encoder reads the low 5 (R9, R29). -/
abbrev Channel := BitVec 8

/-- A frame as the number FRAME16: bit `i` is `frame[i]` (R12). -/
abbrev Frame := BitVec 16

end Sys2Proof
end

