-- ==== Sys2Proof/Config.lean ====
section
/-! DEFINITION. The parameter the spec leaves OPEN that `State.reset` must give a value. The model has no free
value: no command of the spec leaves a result undefined. -/

namespace Sys2Proof

/-- N_CELLS of `State.reset`. DESIGN CHOICE (log entry 1; unsafe if a claim leans on it): R10 leaves N_CELLS OPEN in
`0..65535`; the largest is taken. Every other launch is `Machine.State.launch`. -/
def Config.resetNCells : Fin 65536 := 65535

end Sys2Proof
end

