-- ==== Sys2Proof/Syntax.lean ====
section
/-! DEFINITION. The commands of the block (R11, R77), one constructor per row of the opcode table, and the source
lines of its assembler (R84, R85). -/

namespace Sys2Proof

/-- A decoded command. Every operand has exactly the width R79 gives it, so each value of this type is one legal
command word (R78), and there is nothing left to check. -/
inductive Instr where
  /-- SETC i, r, g, b (R103): set the three channels of a cell and re-encode it. -/
  | setc (idx : Index) (r g b : Channel)
  /-- ENC i (R104): re-encode a cell's frame from its channels. -/
  | enc (idx : Index)
  /-- ENCRAW i, code (R105): set a cell's frame from a packed code. -/
  | encraw (idx : Index) (code : BitVec 16)
  /-- RDCELL i (R106): read a cell's four fields into RESP. -/
  | rdcell (idx : Index)
  /-- START (R132): transmit the start segment. -/
  | start
  /-- FRAME i (R133): transmit one stored frame. -/
  | frame (idx : Index)
  /-- END m (R134): transmit an end segment of m pulses. (`end` is a word of Lean.) -/
  | endTrain (m : Index)
  /-- REFRESH n (R135): transmit cells `0 .. n-1` as a full strip update. -/
  | refresh (n : Index)
  deriving DecidableEq, Repr

/-- The mnemonics of the assembler: those of R84 and the pseudo-instruction INIT of R85. -/
inductive AsmOp where
  | setc | enc | encraw | rdcell | start | frame | endTrain | refresh | init
  deriving DecidableEq, Repr

/-- One assembler line: a mnemonic and its operands as numbers, before any range check (R84, R86). -/
structure AsmLine where
  op : AsmOp
  operands : List Nat
  deriving DecidableEq, Repr

end Sys2Proof
end

