-- ==== Sys2Proof/WellFormed.lean ====
section
/-! DEFINITION. Well-formedness of an assembler line (R86). An `Instr` needs no check: its operand types are the
field widths of R79. A line is checked before it becomes one. -/

namespace Sys2Proof

/-- The field width in bits of each operand of a mnemonic, in order (R76, R79, R86): `i`, `m`, `n` and `code` are
16 bits, `r`, `g` and `b` are 8 bits. -/
def AsmOp.widths : AsmOp → List Nat
  | .setc => [16, 8, 8, 8]
  | .enc => [16]
  | .encraw => [16, 16]
  | .rdcell => [16]
  | .start => []
  | .frame => [16]
  | .endTrain => [16]
  | .refresh => [16]
  | .init => [16]

/-- R86: the line has as many operands as its mnemonic takes. -/
def AsmLine.countOk (l : AsmLine) : Bool :=
  l.operands.length == l.op.widths.length

/-- R86: every operand fits its field. -/
def AsmLine.fits (l : AsmLine) : Bool :=
  (l.operands.zip l.op.widths).all fun p => decide (p.1 < 2 ^ p.2)

/-- R86: a line the assembler does not refuse. -/
def AsmLine.wellFormed (l : AsmLine) : Bool :=
  l.countOk && l.fits

end Sys2Proof
end

