-- ==== Sys2Proof/Decode.lean ====
section
/-! DEFINITION. Decoding a command word (R80, R81), total on all `2^64` words and rejecting by name; the encoder
(R78); and the opcode table's rows as masks and patterns. -/

namespace Sys2Proof

/-- Why a word is ILLEGAL (R81). Either way its issue raises ILLEGAL_COMMAND (R181). -/
inductive IllegalWord where
  /-- OP is 0x0 or 0x9 to 0xF. -/
  | illegalOp (op : BitVec 4)
  /-- OP is legal and a bit its command does not use is 1. -/
  | reservedBit (op : BitVec 4)
  deriving DecidableEq, Repr

/-- The decoder's verdict: a command, or ILLEGAL with its reason. -/
inductive Decoded where
  | cmd (i : Instr)
  | illegal (why : IllegalWord)
  deriving DecidableEq, Repr

/-- The command of a verdict, if there is one. -/
def Decoded.instr? : Decoded → Option Instr
  | .cmd i => some i
  | .illegal _ => none

/-- `w[lo + n - 1 : lo]` (R12). -/
abbrev bitField (w : CmdWord) (lo n : Nat) : BitVec n := w.extractLsb' lo n

/-- The field OP (R76). -/
def opField (w : CmdWord) : BitVec 4 := bitField w 60 4

/-- The field IDX (R76): a cell index or a count. -/
def idxField (w : CmdWord) : Index := bitField w 32 16

/-- The command when the bits that must be 0 are 0, else ILLEGAL ("a failed need", R80). -/
def need (w : CmdWord) (ok : Bool) (i : Instr) : Decoded :=
  if ok then .cmd i else .illegal (.reservedBit (opField w))

/-- Bits 59:48 are 0: asked of every command (R78). -/
def highZero (w : CmdWord) : Bool := bitField w 48 12 == 0

/-- `decode(w)` of R80, line by line. -/
def decode (w : CmdWord) : Decoded :=
  match (opField w).toNat with
  | 1 => need w (highZero w && bitField w 24 8 == 0)
          (.setc (idxField w) (bitField w 16 8) (bitField w 8 8) (bitField w 0 8))
  | 2 => need w (highZero w && bitField w 0 32 == 0) (.enc (idxField w))
  | 3 => need w (highZero w && bitField w 16 16 == 0) (.encraw (idxField w) (bitField w 0 16))
  | 4 => need w (highZero w && bitField w 0 32 == 0) (.rdcell (idxField w))
  | 5 => need w (bitField w 0 60 == 0) .start
  | 6 => need w (highZero w && bitField w 0 32 == 0) (.frame (idxField w))
  | 7 => need w (highZero w && bitField w 0 32 == 0) (.endTrain (idxField w))
  | 8 => need w (highZero w && bitField w 0 32 == 0) (.refresh (idxField w))
  | _ => .illegal (.illegalOp (opField w))

/-- The instruction the decoder reads from a row's bits, numbered as the opcode table numbers them: every command is
one 64-bit word, so the number is the word (R75). A number that is no 64-bit word decodes to nothing. -/
def decodeTableWord (nbits w : Nat) : Option Instr :=
  if w % 2 ^ nbits < 2 ^ 64 then (decode (BitVec.ofNat 64 (w % 2 ^ nbits))).instr? else none

/-- The word of a command that uses no field but IDX (R78): OP, twelve zeros, IDX, thirty-two zeros. -/
def idxWord (op : BitVec 4) (idx : Index) : CmdWord :=
  op ++ (0 : BitVec 12) ++ idx ++ (0 : BitVec 32)

/-- The word of a command: the encoding patterns of R78, bit 63 first. -/
def encode : Instr → CmdWord
  | .setc idx r g b => 0x1#4 ++ (0 : BitVec 12) ++ idx ++ (0 : BitVec 8) ++ r ++ g ++ b
  | .enc idx => idxWord 0x2#4 idx
  | .encraw idx code => 0x3#4 ++ (0 : BitVec 12) ++ idx ++ (0 : BitVec 16) ++ code
  | .rdcell idx => idxWord 0x4#4 idx
  | .start => 0x5#4 ++ (0 : BitVec 60)
  | .frame idx => idxWord 0x6#4 idx
  | .endTrain m => idxWord 0x7#4 m
  | .refresh n => idxWord 0x8#4 n

/-- One row of spec/opcode_table.json: a word is of the row when its bits under `mask` are `pattern`. -/
structure OpcodeRow where
  mask : CmdWord
  pattern : CmdWord
  deriving DecidableEq, Repr

/-- The word is one of the row's. -/
def OpcodeRow.holds (row : OpcodeRow) (w : CmdWord) : Bool := w &&& row.mask == row.pattern

/-- The opcode table's row of each command (spec/opcode_table.json, columns mask and match). -/
def opcodeRow : Instr → OpcodeRow
  | .setc .. => ⟨0xFFFF0000FF000000, 0x1000000000000000⟩
  | .enc .. => ⟨0xFFFF0000FFFFFFFF, 0x2000000000000000⟩
  | .encraw .. => ⟨0xFFFF0000FFFF0000, 0x3000000000000000⟩
  | .rdcell .. => ⟨0xFFFF0000FFFFFFFF, 0x4000000000000000⟩
  | .start => ⟨0xFFFFFFFFFFFFFFFF, 0x5000000000000000⟩
  | .frame .. => ⟨0xFFFF0000FFFFFFFF, 0x6000000000000000⟩
  | .endTrain .. => ⟨0xFFFF0000FFFFFFFF, 0x7000000000000000⟩
  | .refresh .. => ⟨0xFFFF0000FFFFFFFF, 0x8000000000000000⟩

/-- The opcode table, in its own order. -/
def opcodeTable : List OpcodeRow :=
  [opcodeRow (.setc 0 0 0 0), opcodeRow (.enc 0), opcodeRow (.encraw 0 0), opcodeRow (.rdcell 0),
   opcodeRow .start, opcodeRow (.frame 0), opcodeRow (.endTrain 0), opcodeRow (.refresh 0)]

end Sys2Proof
end

