-- ==== Sys2Proof/Machine/State.lean ====
section
/-! DEFINITION. The state of the block (10_state.md), the host's moves still to come, launch and reset (R39, R210),
and the reasons a step of the model can stop. -/

namespace Sys2Proof.Machine

/-- An output line: DATA (serial data) or CLK (clock) (R33, R51). -/
inductive Line where
  | data | clk
  deriving DecidableEq, Repr

/-- The level of a line: `Z` (never driven since launch), 0 or 1 (R33). -/
inductive Level where
  | z | lo | hi
  deriving DecidableEq, Repr

/-- One line event `(L, v)`: one `set_line` call (R15, R34). -/
structure Event where
  line : Line
  value : Bool
  deriving DecidableEq, Repr

/-- A cell record (R29). -/
structure CellRec where
  red : Channel
  green : Channel
  blue : Channel
  frame : Frame
  deriving DecidableEq, Repr

/-- Cell memory (R30, R50): the created slots by index, strictly rising. A slot that is not listed is UNCREATED, and
UNCREATED is no record, so no listed entry equals what an unlisted slot reads as. -/
abbrev Memory := List (Nat × CellRec)

/-- SEQ_CMD: the command in progress (R35). -/
inductive SeqCmd where
  | none | start | frame | endTrain | refresh
  deriving DecidableEq, Repr

/-- SEQ_PHASE: the next micro-step (R35). -/
inductive SeqPhase where
  | sData | sHi | sLo | fData | fHi | fLo | eData | eHi | eLo
  deriving DecidableEq, Repr

/-- The spec's fault causes (R180). Raising one is a NEXT state that records it, not a stop of the model. -/
inductive FaultCode where
  | illegalCommand | indexRange | uncreatedCell | busyCommand
  deriving DecidableEq, Repr

/-- A move of the host (R22, R214). The list of them in State is the host program together with its pacing. -/
inductive HostMove where
  /-- Issue a command word now, whatever STATUS.BUSY reads (R130, R184). -/
  | issue (w : CmdWord)
  /-- Wait until STATUS.BUSY reads 0 (R223). -/
  | awaitIdle
  /-- Let one turn pass; the sequencer takes it if it has a step (R61). -/
  | pass
  /-- Read STATUS (R26). -/
  | readStatus
  /-- Read RESP (R28). -/
  | readResp
  deriving DecidableEq, Repr

/-- A value the host has read. -/
inductive HostRead where
  | status (v : BitVec 32)
  | resp (v : BitVec 64)
  deriving DecidableEq, Repr

/-- The block's state (R20), the launch parameter N_CELLS, and the host's side of the interface. -/
structure State where
  /-- N_CELLS (R10): fixed for the run. -/
  nCells : Fin 65536
  /-- Cell memory (R30). -/
  cells : Memory
  /-- STATUS.FAULTED and STATUS.FCODE (R25): the fault recorded, if any. -/
  fault : Option FaultCode
  /-- RESP (R27). -/
  resp : BitVec 64
  /-- OUT_DATA (R33). -/
  outData : Level
  /-- OUT_CLK (R33). -/
  outClk : Level
  /-- TRACE (R34), oldest event first. -/
  trace : List Event
  /-- SEQ_CMD (R35). STATUS.BUSY is 1 exactly when it is not NONE (R24). -/
  seqCmd : SeqCmd
  /-- SEQ_PHASE (R35). -/
  seqPhase : SeqPhase
  /-- SEQ_CNT (R35). -/
  seqCnt : BitVec 16
  /-- SEQ_CELL (R35). -/
  seqCell : Index
  /-- SEQ_BIT (R35). -/
  seqBit : BitVec 4
  /-- SEQ_N (R35). -/
  seqN : BitVec 16
  /-- SEQ_M (R35). -/
  seqM : BitVec 16
  /-- SEQ_FR (R35). -/
  seqFr : Frame
  /-- The host's moves still to come. The model's own field (log entry 3). -/
  host : List HostMove
  /-- What the host has read, oldest first. The model's own field (log entry 4). -/
  reads : List HostRead
  deriving DecidableEq, Repr

/-- Why a step of the model stops. The spec's own faults (R180) are NOT here: they are states that go on. -/
inductive Fault where
  /-- Raised by the sequencer's turn when the block is faulted and no host move can be made either: "No step is
  possible" (R186; 95_test_vectors.md P4). SAFE. DEDUCED (log entry 6). -/
  | blockStopped
  /-- Raised by phase F_DATA of a REFRESH whose cell is UNCREATED. R144 says this cannot happen, and it happens in no
  state that satisfies `Inv`. SAFE. DESIGN CHOICE (log entry 7). -/
  | refreshReadsUncreated
  deriving DecidableEq, Repr

/-- Why a command has no meaning. -/
inductive Refusal where
  /-- The command has no meaning yet; raised by an arm of `exec` only. No arm raises it. SAFE. -/
  | notModelled (mnemonic : String)
  deriving DecidableEq, Repr

/-- The outcome of a step. -/
abbrev Outcome := Host.Outcome State Fault Refusal

/-- A launch (R210) with the parameters N_CELLS and CELLS0 builds the state of R39. The SEQ_ registers other than
SEQ_CMD are unspecified there: DESIGN CHOICE zero (log entry 2). -/
def State.launch (nCells : Fin 65536) (cells0 : Memory) : State where
  nCells := nCells
  cells := cells0
  fault := none
  resp := 0
  outData := .z
  outClk := .z
  trace := []
  seqCmd := .none
  seqPhase := .sData
  seqCnt := 0
  seqCell := 0
  seqBit := 0
  seqN := 0
  seqM := 0
  seqFr := 0
  host := []
  reads := []

/-- The machine right after reset: a launch with CELLS0 at its default, every slot UNCREATED (R10), and N_CELLS at
`Config.resetNCells` (DESIGN CHOICE, log entry 1). -/
def State.reset : State := State.launch Config.resetNCells []

end Sys2Proof.Machine
end

