-- ==== Sys2Proof/Machine/Flags.lean ====
section
/-! DEFINITION. The block's only flags, STATUS.BUSY and STATUS.FAULTED, the fault code, and the STATUS register as the
host reads it (R23 to R26, R38, R180). -/

namespace Sys2Proof.Machine

/-- FCODE of a fault (R180). -/
def FaultCode.code : FaultCode → BitVec 4
  | .illegalCommand => 1
  | .indexRange => 2
  | .uncreatedCell => 3
  | .busyCommand => 4

/-- STATUS.BUSY is 1 exactly when SEQ_CMD is not NONE (R24), faulted or not (R186, C6). -/
def State.busy (s : State) : Bool := s.seqCmd != .none

/-- STATUS.FAULTED (R25). -/
def State.faulted (s : State) : Bool := s.fault.isSome

/-- STATUS.FCODE: the code of the fault raised, or 0 (R23, R180). -/
def State.fcode (s : State) : BitVec 4 :=
  match s.fault with
  | none => 0
  | some f => f.code

/-- STATUS as the host reads it (R23): FCODE at 7:4, FAULTED at 1, BUSY at 0, every other bit 0. -/
def State.status (s : State) : BitVec 32 :=
  (0 : BitVec 24) ++ s.fcode ++ (0 : BitVec 2) ++ BitVec.ofBool s.faulted ++ BitVec.ofBool s.busy

/-- The sequencer has a step exactly when `SEQ_CMD != NONE` and `STATUS.FAULTED = 0` (R140). -/
def State.seqEnabled (s : State) : Bool := s.busy && !s.faulted

end Sys2Proof.Machine
end

