-- ==== Sys2Proof/Machine/Operands.lean ====
section
/-! DEFINITION. The pure functions over operands: ENCODE, RAWENCODE, the RESP word of a cell, line levels and line ids,
and the protocol's fixed counts. -/

namespace Sys2Proof.Machine

/-- START_PULSES (R9, R132): the start segment's pulses. -/
def startPulses : Nat := 32

/-- `ENCODE(r, g, b)` (R100): flag 1, then the low 5 bits of blue, red and green. -/
def encodeFrame (r g b : Channel) : Frame :=
  1#1 ++ b.extractLsb' 0 5 ++ r.extractLsb' 0 5 ++ g.extractLsb' 0 5

/-- `RAWENCODE(code)` (R102): flag 1, then bits 14:0 of the code; `code[15]` is ignored. -/
def rawEncode (code : BitVec 16) : Frame :=
  1#1 ++ code.extractLsb' 0 15

/-- ENCODE of a record's own channels. -/
def CellRec.encoded (c : CellRec) : Frame := encodeFrame c.red c.green c.blue

/-- The record with its frame replaced. The channels stay (R104, R105). -/
def CellRec.withFrame (c : CellRec) (f : Frame) : CellRec := { c with frame := f }

/-- The record re-encoded from its own channels: what ENC and the encode step of REFRESH write (R104, R144). -/
def CellRec.reencoded (c : CellRec) : CellRec := c.withFrame c.encoded

/-- The RESP word of a record (R106): `zext_64({frame, 0x00, red, green, blue})`. -/
def CellRec.respWord (c : CellRec) : BitVec 64 :=
  (0 : BitVec 16) ++ c.frame ++ (0 : BitVec 8) ++ c.red ++ c.green ++ c.blue

/-- The level of a driven line. -/
def Level.ofBool : Bool → Level
  | false => .lo
  | true => .hi

/-- `line_id` (R87): DATA is 0, CLK is 1. -/
def Line.id : Line → Nat
  | .data => 0
  | .clk => 1

/-- The phase is the one that ends a pulse: the clock stands at 1 before it runs (R143, R146, R149). -/
def SeqPhase.endsPulse : SeqPhase → Bool
  | .sLo | .fLo | .eLo => true
  | .sData | .sHi | .fData | .fHi | .eData | .eHi => false

/-- The states of the source's machine `Idle → Start → (Frame)* → End → Idle` (R37). -/
inductive Segment where
  | idle | start | frame | endTrain
  deriving DecidableEq, Repr

/-- The segment a phase belongs to (R37). -/
def SeqPhase.segment : SeqPhase → Segment
  | .sData | .sHi | .sLo => .start
  | .fData | .fHi | .fLo => .frame
  | .eData | .eHi | .eLo => .endTrain

/-- Where the block stands in the source's machine (R37): Idle is `SEQ_CMD = NONE`. -/
def State.segment (s : State) : Segment :=
  if s.seqCmd = .none then .idle else s.seqPhase.segment

end Sys2Proof.Machine
end

