-- ==== Sys2Proof/Machine/Ops.lean ====
section
/-! DEFINITION. The named operations over the state: cell memory, the output lines, raising a fault, and the checks of
command acceptance (R14 to R16, R130, R182, R183). There is no return from a fault: nothing but a launch clears one
(R190). -/

namespace Sys2Proof.Machine

/-- `CellRead(i)` (R14): the record in a slot, or `none` for UNCREATED. -/
def Memory.read : Memory → Nat → Option CellRec
  | [], _ => none
  | (j, c) :: rest, i => if i = j then some c else Memory.read rest i

/-- `CellWrite(i, c)` (R14): the record in slot `i` becomes `c`; the list stays strictly rising. -/
def Memory.write : Memory → Nat → CellRec → Memory
  | [], i, c => [(i, c)]
  | (j, d) :: rest, i, c =>
    if i < j then (i, c) :: (j, d) :: rest
    else if i = j then (i, c) :: rest
    else (j, d) :: Memory.write rest i c

/-- The indices are strictly rising and none is below `lo`. -/
def Memory.risingFrom : Nat → Memory → Bool
  | _, [] => true
  | lo, (j, _) :: rest => decide (lo ≤ j) && Memory.risingFrom (j + 1) rest

/-- The canonical form of cell memory: the indices are strictly rising. -/
def Memory.wf (m : Memory) : Bool := Memory.risingFrom 0 m

/-- Every created slot is one of the `n` slots there are (R30). -/
def Memory.inRange (n : Nat) (m : Memory) : Bool := m.all fun p => decide (p.1 < n)

/-- Every record has `frame[15] = 1` (R30, R31). -/
def Memory.flagged (m : Memory) : Bool := m.all fun p => p.2.frame.getLsbD 15

/-- Slots `k, k+1, ..` are created, for the given number of them, in ascending order (R135). -/
def Memory.createdFrom (m : Memory) (k : Nat) : Nat → Bool
  | 0 => true
  | count + 1 => (m.read k).isSome && Memory.createdFrom m (k + 1) count

/-- A valid launch (R210): CELLS0 gives records to slots there are, each with `frame[15] = 1`. -/
def launchValid (nCells : Fin 65536) (cells0 : Memory) : Bool :=
  cells0.wf && cells0.inRange nCells.val && cells0.flagged

/-- `CellWrite(i, c)` on the state. -/
def State.cellWrite (s : State) (idx : Index) (c : CellRec) : State :=
  { s with cells := s.cells.write idx.toNat c }

/-- `CellRead(i)` on the state. -/
def State.cellRead (s : State) (idx : Index) : Option CellRec := s.cells.read idx.toNat

/-- `emit(L, v)`, one `set_line` call (R15, R162): the event is appended to TRACE, also when the level does not change
(R57), and the line takes the level. -/
def State.emit (s : State) (line : Line) (v : Bool) : State :=
  match line with
  | .data => { s with outData := Level.ofBool v, trace := s.trace ++ [⟨.data, v⟩] }
  | .clk => { s with outClk := Level.ofBool v, trace := s.trace ++ [⟨.clk, v⟩] }

/-- `raise Fault(code)` (R16): FAULTED and FCODE record it; nothing else changes, there is no trap entry (R189). -/
def State.raiseFault (s : State) (code : FaultCode) : State := { s with fault := some code }

/-- A step that ends by raising a fault: a NEXT state (R130, R186). -/
def raise (code : FaultCode) (s : State) : Outcome := .next (s.raiseFault code)

/-- `finish` (R150): `SEQ_CMD <- NONE`; the other sequencer registers keep their values. -/
def State.finish (s : State) : State := { s with seqCmd := .none }

/-- The checks every issue makes first (R130, R187): a faulted block takes nothing, a busy one raises BUSY_COMMAND;
else the acceptance part runs. -/
def accept (s : State) (body : State → Outcome) : Outcome :=
  if s.faulted then .next s
  else if s.busy then raise .busyCommand s
  else body s

/-- The index check (R182). -/
def withIndex (idx : Index) (s : State) (body : State → Outcome) : Outcome :=
  if idx.toNat < s.nCells.val then body s else raise .indexRange s

/-- The index check, then the read of a cell that must be created (R182, R183). -/
def withCell (idx : Index) (s : State) (body : CellRec → State → Outcome) : Outcome :=
  withIndex idx s fun s =>
    match s.cellRead idx with
    | none => raise .uncreatedCell s
    | some c => body c s

end Sys2Proof.Machine
end

