-- ==== Sys2Proof/Machine/Assembler.lean ====
section
/-! DEFINITION. The assembler (R84 to R86): from the characters of a line to a command word, or a refusal (`none`). -/

namespace Sys2Proof.Machine

/-- The command of a line whose operands are as many as its mnemonic takes (R84, R85). -/
def asmInstr : AsmOp → List Nat → Option Instr
  | .setc, [i, r, g, b] => some (.setc (.ofNat 16 i) (.ofNat 8 r) (.ofNat 8 g) (.ofNat 8 b))
  | .enc, [i] => some (.enc (.ofNat 16 i))
  | .encraw, [i, code] => some (.encraw (.ofNat 16 i) (.ofNat 16 code))
  | .rdcell, [i] => some (.rdcell (.ofNat 16 i))
  | .start, [] => some .start
  | .frame, [i] => some (.frame (.ofNat 16 i))
  | .endTrain, [m] => some (.endTrain (.ofNat 16 m))
  | .refresh, [n] => some (.refresh (.ofNat 16 n))
  | .init, [i] => some (.setc (.ofNat 16 i) 0 0 0)
  | _, _ => none

/-- The word of a line; a line that is not well-formed is refused and gives no word (R86). -/
def assemble (l : AsmLine) : Option CmdWord :=
  if l.wellFormed then (asmInstr l.op l.operands).map encode else none

/-- The spellings of the mnemonics (R84, R85). -/
def asmMnemonics : List (List Char × AsmOp) :=
  [(['S', 'E', 'T', 'C'], .setc), (['E', 'N', 'C'], .enc), (['E', 'N', 'C', 'R', 'A', 'W'], .encraw),
   (['R', 'D', 'C', 'E', 'L', 'L'], .rdcell), (['S', 'T', 'A', 'R', 'T'], .start),
   (['F', 'R', 'A', 'M', 'E'], .frame), (['E', 'N', 'D'], .endTrain),
   (['R', 'E', 'F', 'R', 'E', 'S', 'H'], .refresh), (['I', 'N', 'I', 'T'], .init)]

/-- The value of a digit, if it is one of base `base` (10 or 16). DESIGN CHOICE (log entry 9): hexadecimal digits may be
of either case. -/
def digitValue (base : Nat) (c : Char) : Option Nat :=
  let n := c.toNat
  let v := if 48 ≤ n ∧ n ≤ 57 then some (n - 48)
    else if 65 ≤ n ∧ n ≤ 70 then some (n - 55)
    else if 97 ≤ n ∧ n ≤ 102 then some (n - 87)
    else none
  v.bind fun d => if d < base then some d else none

/-- The number of a row of digits, most significant first, `acc` standing before them. -/
def digitsValue (base acc : Nat) : List Char → Option Nat
  | [] => some acc
  | c :: cs => (digitValue base c).bind fun d => digitsValue base (acc * base + d) cs

/-- A number: decimal, or hexadecimal with `0x` (R84). No digits is no number. -/
def parseNumber : List Char → Option Nat
  | [] => none
  | '0' :: 'x' :: [] => none
  | '0' :: 'x' :: ds => digitsValue 16 0 ds
  | ds => digitsValue 10 0 ds

/-- The characters without the spaces around them. -/
def trimSpaces (cs : List Char) : List Char :=
  ((cs.dropWhile (· == ' ')).reverse.dropWhile (· == ' ')).reverse

/-- The pieces between commas (R84); always at least one. -/
def splitCommas : List Char → List (List Char)
  | [] => [[]]
  | c :: cs =>
    match splitCommas cs with
    | [] => [[c]]
    | p :: ps => if c = ',' then [] :: p :: ps else (c :: p) :: ps

/-- Every piece as a number, or none if one is no number. -/
def parseNumbers : List (List Char) → Option (List Nat)
  | [] => some []
  | p :: ps => (parseNumber (trimSpaces p)).bind fun n => (parseNumbers ps).map (n :: ·)

/-- A line of text (R84): mnemonic first, then the operands separated by commas. An unknown mnemonic or an operand that
is no number is refused (R86). -/
def parseLine (text : List Char) : Option AsmLine :=
  let cs := trimSpaces text
  let name := cs.takeWhile (· != ' ')
  let rest := trimSpaces (cs.dropWhile (· != ' '))
  (asmMnemonics.lookup name).bind fun op =>
    (if rest = [] then some [] else parseNumbers (splitCommas rest)).map fun ns => ⟨op, ns⟩

/-- The word of a line of text, or a refusal (R84 to R86). -/
def assembleText (text : List Char) : Option CmdWord := (parseLine text).bind assemble

end Sys2Proof.Machine
end

