-- ==== Sys2Proof/Machine/Encoder.lean ====
section
/-! DEFINITION. The Frame Encoder's commands (40_encoder.md): SETC, ENC, ENCRAW, RDCELL. Each is whole in its acceptance
step, touches no output line and never sets BUSY (R131). -/

namespace Sys2Proof.Machine

/-- SETC (R103): the whole record is written, its frame encoded from the new channels; an UNCREATED slot is created. -/
def execSetc (idx : Index) (r g b : Channel) (s : State) : Outcome :=
  accept s fun s =>
    withIndex idx s fun s =>
      .next (s.cellWrite idx ⟨r, g, b, encodeFrame r g b⟩)

/-- ENC (R104): the frame is recomputed from the channels, which stay. -/
def execEnc (idx : Index) (s : State) : Outcome :=
  accept s fun s =>
    withCell idx s fun c s =>
      .next (s.cellWrite idx c.reencoded)

/-- ENCRAW (R105): the frame is set from the code; the channels are NOT updated (R110). -/
def execEncraw (idx : Index) (code : BitVec 16) (s : State) : Outcome :=
  accept s fun s =>
    withCell idx s fun c s =>
      .next (s.cellWrite idx (c.withFrame (rawEncode code)))

/-- RDCELL (R106): the record's four fields go to RESP. -/
def execRdcell (idx : Index) (s : State) : Outcome :=
  accept s fun s =>
    withCell idx s fun c s =>
      .next { s with resp := c.respWord }

end Sys2Proof.Machine
end

