-- ==== Sys2Proof/Machine/Transmitter.lean ====
section
/-! DEFINITION. The Strip Transmitter's commands (41_transmitter.md): START, FRAME, END, REFRESH. Their acceptance loads
the sequencer and sets BUSY; it emits no event (R131). The events come from Machine/Sequencer.lean. -/

namespace Sys2Proof.Machine

/-- START (R132). -/
def execStart (s : State) : Outcome :=
  accept s fun s =>
    .next { s with seqCmd := .start, seqPhase := .sData }

/-- FRAME (R133): the stored frame is copied into SEQ_FR; it is not encoded. -/
def execFrame (idx : Index) (s : State) : Outcome :=
  accept s fun s =>
    withCell idx s fun c s =>
      .next { s with seqCmd := .frame, seqCell := idx, seqFr := c.frame, seqBit := 15, seqPhase := .fData }

/-- END (R134): the count is not checked against N_CELLS. -/
def execEndTrain (m : Index) (s : State) : Outcome :=
  accept s fun s =>
    .next { s with seqCmd := .endTrain, seqM := m, seqPhase := .eData }

/-- REFRESH (R135): every check is made before the first event. -/
def execRefresh (n : Index) (s : State) : Outcome :=
  accept s fun s =>
    if s.nCells.val < n.toNat then raise .indexRange s
    else if s.cells.createdFrom 0 n.toNat then
      .next { s with seqCmd := .refresh, seqN := n, seqM := n, seqPhase := .sData }
    else raise .uncreatedCell s

end Sys2Proof.Machine
end

