-- ==== Sys2Proof/Machine/Dispatch.lean ====
section
/-! DEFINITION. `exec`: the issue of a decoded command (R130, R131), one arm per constructor of Instr. -/

namespace Sys2Proof.Machine

def exec (i : Instr) (s : State) : Host.Outcome State Fault Refusal :=
  match i with
  -- Frame Encoder
  | .setc idx r g b => Sys2Proof.Machine.execSetc idx r g b s
  | .enc idx => Sys2Proof.Machine.execEnc idx s
  | .encraw idx code => Sys2Proof.Machine.execEncraw idx code s
  | .rdcell idx => Sys2Proof.Machine.execRdcell idx s
  -- Strip Transmitter
  | .start => Sys2Proof.Machine.execStart s
  | .frame idx => Sys2Proof.Machine.execFrame idx s
  | .endTrain m => Sys2Proof.Machine.execEndTrain m s
  | .refresh n => Sys2Proof.Machine.execRefresh n s

end Sys2Proof.Machine
end

