-- ==== Sys2Proof/Machine/Sequencer.lean ====
section
/-! DEFINITION. The sequencer (R140 to R150): one definition per phase, each emitting exactly one line event. Counter
comparisons and increments are on natural numbers (R140). -/

namespace Sys2Proof.Machine

/-- Phase S_DATA (R141). -/
def phaseSData (s : State) : State :=
  { s.emit .data false with seqCnt := 0, seqPhase := .sHi }

/-- Phase S_HI (R142). -/
def phaseSHi (s : State) : State :=
  { s.emit .clk true with seqPhase := .sLo }

/-- Phase S_LO (R143): the next pulse of the start train, or what follows the train. -/
def phaseSLo (s : State) : State :=
  let t := { s.emit .clk false with seqCnt := BitVec.ofNat 16 (s.seqCnt.toNat + 1) }
  if s.seqCnt.toNat + 1 < startPulses then { t with seqPhase := .sHi }
  else if s.seqCmd = .start then t.finish
  else if s.seqN.toNat = 0 then { t with seqPhase := .eData }
  else { t with seqCell := 0, seqBit := 15, seqPhase := .fData }

/-- DATA takes the current bit of SEQ_FR: the last line of phase F_DATA (R144). -/
def driveBit (s : State) : State :=
  { s.emit .data (s.seqFr.getLsbD s.seqBit.toNat) with seqPhase := .fHi }

/-- `encode(cell)` of refresh step 2 (R144, R155): the current cell is encoded from its channels, and the frame is the
one that is sent. -/
def encodeCurrent (c : CellRec) (s : State) : State :=
  { s.cellWrite s.seqCell c.reencoded with seqFr := c.encoded }

/-- Phase F_DATA (R144). -/
def phaseFData (s : State) : Outcome :=
  if s.seqCmd = .refresh ∧ s.seqBit = 15 then
    match s.cellRead s.seqCell with
    | none => .fault .refreshReadsUncreated
    | some c => .next (driveBit (encodeCurrent c s))
  else .next (driveBit s)

/-- Phase F_HI (R145). -/
def phaseFHi (s : State) : State :=
  { s.emit .clk true with seqPhase := .fLo }

/-- Phase F_LO (R146): the next bit, the end of a FRAME, the next cell, or the end train. -/
def phaseFLo (s : State) : State :=
  let t := s.emit .clk false
  if 0 < s.seqBit.toNat then { t with seqBit := s.seqBit - 1, seqPhase := .fData }
  else if s.seqCmd = .frame then t.finish
  else if s.seqCell.toNat + 1 < s.seqN.toNat then
    { t with seqCell := s.seqCell + 1, seqBit := 15, seqPhase := .fData }
  else { t with seqPhase := .eData }

/-- Phase E_DATA (R147). -/
def phaseEData (s : State) : State :=
  let t := { s.emit .data false with seqCnt := 0 }
  if s.seqM.toNat = 0 then t.finish else { t with seqPhase := .eHi }

/-- Phase E_HI (R148). -/
def phaseEHi (s : State) : State :=
  { s.emit .clk true with seqPhase := .eLo }

/-- Phase E_LO (R149): the next pulse of the end train, or the end. -/
def phaseELo (s : State) : State :=
  let t := { s.emit .clk false with seqCnt := BitVec.ofNat 16 (s.seqCnt.toNat + 1) }
  if s.seqCnt.toNat + 1 < s.seqM.toNat then { t with seqPhase := .eHi } else t.finish

/-- One step of the sequencer: the rule for the current phase (R140). -/
def seqStep (s : State) : Outcome :=
  match s.seqPhase with
  | .sData => .next (phaseSData s)
  | .sHi => .next (phaseSHi s)
  | .sLo => .next (phaseSLo s)
  | .fData => phaseFData s
  | .fHi => .next (phaseFHi s)
  | .fLo => .next (phaseFLo s)
  | .eData => .next (phaseEData s)
  | .eHi => .next (phaseEHi s)
  | .eLo => .next (phaseELo s)

/-- The sequencer's turn: a faulted block has no step left (R186, log entry 6); an idle one does nothing and keeps all
its state (R197, log entry 5); a busy one takes a micro-step. -/
def seqTurn (s : State) : Outcome :=
  if s.faulted then .fault .blockStopped
  else if s.busy then seqStep s
  else .next s

end Sys2Proof.Machine
end

