-- ==== Sys2Proof/Machine/HostPort.lean ====
section
/-! DEFINITION. The host's side (R22, R52, R214): the issue of a command word (R130), the reads of STATUS and RESP
(R26, R28), and a host program (R223). -/

namespace Sys2Proof.Machine

/-- `issue(w)` (R130). `exec` makes the FAULTED and BUSY checks of every command, and an ILLEGAL word makes the same
checks before it raises ILLEGAL_COMMAND (R187). -/
def issue (w : CmdWord) (s : State) : Outcome :=
  match decode w with
  | .cmd i => exec i s
  | .illegal _ => accept s (raise .illegalCommand)

/-- One turn in which the host's next move is `m`, and `rest` are the moves after it. Waiting for BUSY to read 0 leaves
the turn to the sequencer and is still to come; every other move is made and gone. -/
def hostTurn (m : HostMove) (rest : List HostMove) (s : State) : Outcome :=
  match m with
  | .issue w => issue w { s with host := rest }
  | .awaitIdle => if s.busy then seqTurn s else .next { s with host := rest }
  | .pass => if s.seqEnabled then seqStep { s with host := rest } else .next { s with host := rest }
  | .readStatus => .next { s with host := rest, reads := s.reads ++ [.status s.status] }
  | .readResp => .next { s with host := rest, reads := s.reads ++ [.resp s.resp] }

/-- The word is an RDCELL. -/
def isRdcell (w : CmdWord) : Bool :=
  match decode w with
  | .cmd (.rdcell _) => true
  | _ => false

/-- The moves of a well-behaved host for one word (R223): wait until BUSY reads 0, issue it, and read RESP after a
RDCELL. -/
def wordMoves (w : CmdWord) : List HostMove :=
  [.awaitIdle, .issue w] ++ if isRdcell w then [.readResp] else []

/-- A host program (R223): its words in order, each issued by a well-behaved host. -/
def hostProgram (ws : List CmdWord) : List HostMove := ws.flatMap wordMoves

/-- The state with these host moves to come. -/
def State.withHost (s : State) (moves : List HostMove) : State := { s with host := moves }

end Sys2Proof.Machine
end

