-- ==== Sys2Proof/Machine/Trace.lean ====
section
/-! DEFINITION. The big-step view of a transmission: the event traces (R136 to R139), the level of a line after a
trace (R33), the bits a trace transmits (R160), and the clocking of a trace (R154). -/

namespace Sys2Proof.Machine

/-- `pulse()` (R15): `(CLK,1)` then `(CLK,0)`. -/
def pulseEvents : List Event := [⟨.clk, true⟩, ⟨.clk, false⟩]

/-- `repeat m` of a pulse. -/
def pulseTrain : Nat → List Event
  | 0 => []
  | m + 1 => pulseEvents ++ pulseTrain m

/-- TRACE_START (R136). -/
def traceStart : List Event := ⟨.data, false⟩ :: pulseTrain startPulses

/-- The events of bits `k-1, ..., 0` of a frame, in that order. -/
def traceBits (f : Frame) : Nat → List Event
  | 0 => []
  | k + 1 => ⟨.data, f.getLsbD k⟩ :: pulseEvents ++ traceBits f k

/-- TRACE_FRAME(f) (R137): bit 15 first. -/
def traceFrame (f : Frame) : List Event := traceBits f 16

/-- TRACE_END(m) (R138). -/
def traceEnd (m : Nat) : List Event := ⟨.data, false⟩ :: pulseTrain m

/-- TRACE_REFRESH (R139) of the cells given, in order. -/
def traceRefresh (cs : List CellRec) : List Event :=
  traceStart ++ cs.flatMap (fun c => traceFrame c.encoded) ++ traceEnd cs.length

/-- The cells `k .. k+count-1` of cell memory, in ascending order; a slot that is UNCREATED gives none. -/
def Memory.slice (m : Memory) (k : Nat) : Nat → List CellRec
  | 0 => []
  | count + 1 => (m.read k).toList ++ Memory.slice m (k + 1) count

/-- The level a line has after a trace that starts at launch (R33): that of the last event on it, or `Z`. -/
def lastLevel (line : Line) (t : List Event) : Level :=
  t.foldl (fun lv e => if e.line = line then Level.ofBool e.value else lv) .z

/-- The bits a trace transmits (R160), when DATA stands at `d` before it: the DATA level at each `(CLK,1)`. -/
def bitsFrom (d : Level) : List Event → List Level
  | [] => []
  | ⟨.data, v⟩ :: t => bitsFrom (Level.ofBool v) t
  | ⟨.clk, true⟩ :: t => d :: bitsFrom d t
  | ⟨.clk, false⟩ :: t => bitsFrom d t

/-- The bits transmitted since launch (R160). -/
def transmittedBits (t : List Event) : List Level := bitsFrom .z t

/-- The 16 transmitted bits of a frame, bit 15 first (R74). -/
def frameBits (f : Frame) : Nat → List Level
  | 0 => []
  | k + 1 => Level.ofBool (f.getLsbD k) :: frameBits f k

/-- One event seen by a watcher of the clock that holds whether the clock is high: DATA may move only while it is low,
a high clock goes low next (R154). `none`: the rule is broken. -/
def clockWatch : Option Bool → Event → Option Bool
  | some false, ⟨.data, _⟩ => some false
  | some false, ⟨.clk, true⟩ => some true
  | some true, ⟨.clk, false⟩ => some false
  | _, _ => none

/-- The watcher after a whole trace. -/
def clockScan (t : List Event) : Option Bool := t.foldl clockWatch (some false)

/-- The number of pulses: the `(CLK,1)` events (R152). -/
def pulseCount (t : List Event) : Nat := t.countP fun e => e == ⟨.clk, true⟩

/-- The number of DATA events (R152). -/
def dataCount (t : List Event) : Nat := t.countP fun e => e.line == .data

end Sys2Proof.Machine
end

