-- ==== Sys2Proof/Machine/Step.lean ====
section
/-! DEFINITION. The step of the machine: one step of one agent (R22, R56, R61). The block fetches no instructions (R21,
R64): its next command word is the host's next move. -/

namespace Sys2Proof.Machine

/-- One step. The host's next move decides whose step it is; with no host move to come the sequencer has the turn. -/
def step (s : State) : Host.Outcome State Fault Refusal :=
  match s.host with
  | [] => seqTurn s
  | m :: rest => hostTurn m rest s

/-- The state whose very next step issues the word with these bits: the word is put before the host's other moves
(log entry 3). -/
def State.withFetchWord (s : State) (nbits w : Nat) : State :=
  { s with host := .issue (BitVec.ofNat 64 (w % 2 ^ nbits)) :: s.host }

end Sys2Proof.Machine
end

