-- ==== Sys2Proof/Safety.lean ====
section
/-! DEFINITION. What counts as a good state and a good run, in the terms the statements use: the invariant every step
keeps, the end of a run (R222), the well-behaved host (R214, R223), and how many sequencer steps a transmission has
left (R151, R221). -/

namespace Sys2Proof.Machine

/-- The phases each command passes through (R37): START, FRAME and END only their own segment, REFRESH all. -/
def State.phaseLegal (s : State) : Bool :=
  match s.seqCmd with
  | .none => true
  | .start => s.seqPhase.segment == .start
  | .frame => s.seqPhase.segment == .frame
  | .endTrain => s.seqPhase.segment == .endTrain
  | .refresh => true

/-- The pulse counters stand within their trains (R143, R149). -/
def State.countLegal (s : State) : Bool :=
  match s.seqPhase with
  | .sHi | .sLo => decide (s.seqCnt.toNat < startPulses)
  | .eHi | .eLo => decide (s.seqCnt.toNat < s.seqM.toNat)
  | .sData | .fData | .fHi | .fLo | .eData => true

/-- What a REFRESH was accepted with still holds (R135, R144): its cells exist and are created, its end train has one
pulse per cell, and the cell being sent is one of them. -/
def State.refreshLegal (s : State) : Bool :=
  decide (s.seqN.toNat ≤ s.nCells.val) && s.cells.createdFrom 0 s.seqN.toNat && s.seqM == s.seqN &&
    (s.seqPhase.segment != .frame || decide (s.seqCell.toNat < s.seqN.toNat))

/-- SEQ_FR holds the frame of the cell being sent: for a FRAME always, for a REFRESH from the encode step of the cell
on (R133, R144). -/
def State.sendsFrame (s : State) : Bool :=
  match s.seqCmd, s.seqPhase with
  | .frame, _ => true
  | .refresh, .fData => s.seqBit != 15
  | .refresh, .fHi => true
  | .refresh, .fLo => true
  | _, _ => false

/-- What DATA stands at once the phase's segment has driven it (R153, R144); `none` where no rule says. -/
def State.dataDue (s : State) : Option Level :=
  match s.seqPhase with
  | .sHi | .sLo | .eHi | .eLo => some .lo
  | .fHi | .fLo => some (Level.ofBool (s.seqFr.getLsbD s.seqBit.toNat))
  | .sData | .fData | .eData => none

/-- The invariant of the machine: every step keeps it, and every valid launch has it. -/
structure Inv (s : State) : Prop where
  /-- Cell memory is in its canonical form. -/
  memoryWf : s.cells.wf = true
  /-- Every created slot is a slot there is (R30). -/
  memoryInRange : s.cells.inRange s.nCells.val = true
  /-- Every created cell has `frame[15] = 1` (R31). -/
  memoryFlagged : s.cells.flagged = true
  /-- DATA holds the value of the last event on it, or `Z` (R33). -/
  dataLine : s.outData = lastLevel .data s.trace
  /-- CLK holds the value of the last event on it, or `Z` (R33). -/
  clkLine : s.outClk = lastLevel .clk s.trace
  /-- Every pulse so far is whole, or is the one now high, and DATA never moved inside one (R154). -/
  clocked : clockScan s.trace = some (s.outClk == .hi)
  /-- CLK stands at 1 exactly between the two events of a pulse. -/
  clkHigh : (s.outClk == .hi) = (s.busy && s.seqPhase.endsPulse)
  /-- A busy block is in a phase of its command (R37). -/
  phases : s.phaseLegal = true
  /-- A busy block's pulse counter stands within its train. -/
  counts : s.busy = true → s.countLegal = true
  /-- DATA is low in the start and end trains, and is the current bit in a frame (R144, R153). -/
  dataDriven : s.busy = true → s.dataDue.all (s.outData == ·) = true
  /-- A REFRESH in progress has its cells. -/
  refreshing : s.seqCmd = .refresh → s.refreshLegal = true
  /-- The frame being sent is the stored frame of the cell being sent. -/
  sending : s.sendsFrame = true → (s.cellRead s.seqCell).map CellRec.frame = some s.seqFr
  /-- In a REFRESH that frame is ENCODE of the cell's channels (R155). -/
  sendingFresh : s.sendsFrame = true → s.seqCmd = .refresh →
    (s.cellRead s.seqCell).map CellRec.encoded = some s.seqFr

/-- The move issues a command word. -/
def HostMove.isIssue : HostMove → Bool
  | .issue _ => true
  | .awaitIdle | .pass | .readStatus | .readResp => false

/-- The end of a run (R222): the host has issued its last word, SEQ_CMD is NONE, and no fault was raised. A wait, a
passed turn or a read may still be to come. A faulted state is never final. -/
def State.runEnded (s : State) : Bool := !s.host.any HostMove.isIssue && s.seqCmd == .none && !s.faulted

/-- The observation at the end of a run (R222). -/
structure Observation where
  trace : List Event
  cells : Memory
  resp : BitVec 64
  outData : Level
  outClk : Level
  respReads : List (BitVec 64)
  deriving DecidableEq, Repr

/-- What is observed of a state (R222): TRACE, cell memory, RESP, the line levels, and the RESP values the host read. -/
def State.observation (s : State) : Observation where
  trace := s.trace
  cells := s.cells
  resp := s.resp
  outData := s.outData
  outClk := s.outClk
  respReads := s.reads.filterMap fun
    | .resp v => some v
    | .status _ => none

/-- The host issues a word only when it knows that BUSY reads 0 (R214). `idle`: it knows so now. -/
def wellBehaved : Bool → List HostMove → Bool
  | _, [] => true
  | idle, .issue _ :: rest => idle && wellBehaved false rest
  | _, .awaitIdle :: rest => wellBehaved true rest
  | idle, .pass :: rest => wellBehaved idle rest
  | idle, .readStatus :: rest => wellBehaved idle rest
  | idle, .readResp :: rest => wellBehaved idle rest

/-- The sequencer steps an end segment takes (R151). -/
def endSteps (m : Nat) : Nat := 1 + 2 * m

/-- The sequencer steps left after the start train (R143). -/
def State.stepsAfterStart (s : State) : Nat :=
  if s.seqCmd = .start then 0 else 48 * s.seqN.toNat + endSteps s.seqM.toNat

/-- The sequencer steps left after the frame being sent (R146). -/
def State.stepsAfterFrame (s : State) : Nat :=
  if s.seqCmd = .frame then 0 else 48 * (s.seqN.toNat - 1 - s.seqCell.toNat) + endSteps s.seqM.toNat

/-- The sequencer steps left until the finish step, itself counted (R151). -/
def State.stepsLeft (s : State) : Nat :=
  if s.seqCmd = .none then 0 else
  match s.seqPhase with
  | .sData => 1 + 2 * startPulses + s.stepsAfterStart
  | .sHi => 2 * (startPulses - s.seqCnt.toNat) + s.stepsAfterStart
  | .sLo => 2 * (startPulses - s.seqCnt.toNat) - 1 + s.stepsAfterStart
  | .fData => 3 * (s.seqBit.toNat + 1) + s.stepsAfterFrame
  | .fHi => 3 * (s.seqBit.toNat + 1) - 1 + s.stepsAfterFrame
  | .fLo => 3 * (s.seqBit.toNat + 1) - 2 + s.stepsAfterFrame
  | .eData => endSteps s.seqM.toNat
  | .eHi => 2 * (s.seqM.toNat - s.seqCnt.toNat)
  | .eLo => 2 * (s.seqM.toNat - s.seqCnt.toNat) - 1

/-- Bit `j` of a word whose OP is `op` must be 0 (R78, column "bits that must be 0"). -/
def mustBeZero (op j : Nat) : Bool :=
  match op with
  | 1 => decide (48 ≤ j ∧ j ≤ 59) || decide (24 ≤ j ∧ j ≤ 31)
  | 3 => decide (48 ≤ j ∧ j ≤ 59) || decide (16 ≤ j ∧ j ≤ 31)
  | 5 => decide (j ≤ 59)
  | _ => decide (48 ≤ j ∧ j ≤ 59) || decide (j ≤ 31)

/-- The command names a cell, or a count of cells, that is not there (R182). END is never checked. -/
def indexTooLarge (i : Instr) (s : State) : Bool :=
  match i with
  | .setc idx _ _ _ => decide (s.nCells.val ≤ idx.toNat)
  | .enc idx => decide (s.nCells.val ≤ idx.toNat)
  | .encraw idx _ => decide (s.nCells.val ≤ idx.toNat)
  | .rdcell idx => decide (s.nCells.val ≤ idx.toNat)
  | .start => false
  | .frame idx => decide (s.nCells.val ≤ idx.toNat)
  | .endTrain _ => false
  | .refresh n => decide (s.nCells.val < n.toNat)

/-- The command reads a slot that is UNCREATED (R183). SETC never does. -/
def readsUncreated (i : Instr) (s : State) : Bool :=
  match i with
  | .setc _ _ _ _ => false
  | .enc idx => (s.cellRead idx).isNone
  | .encraw idx _ => (s.cellRead idx).isNone
  | .rdcell idx => (s.cellRead idx).isNone
  | .start => false
  | .frame idx => (s.cellRead idx).isNone
  | .endTrain _ => false
  | .refresh n => (List.range n.toNat).any fun k => (s.cells.read k).isNone

/-- The fault that the issue of `w` on a block that is not faulted must raise, by the priority of R187. -/
def faultDue (w : CmdWord) (s : State) : Option FaultCode :=
  if s.busy then some .busyCommand
  else match decode w with
    | .illegal _ => some .illegalCommand
    | .cmd i =>
      if indexTooLarge i s then some .indexRange
      else if readsUncreated i s then some .uncreatedCell
      else none

/-- `k` steps of the machine, stopping at the first fault or refusal: `Host.Core.run` of `Sys2Proof.core`. -/
def runSteps : Nat → State → Outcome
  | 0, s => .next s
  | k + 1, s =>
    match step s with
    | .next t => runSteps k t
    | .fault r => .fault r
    | .refused r => .refused r

/-- The host leaves each turn to the sequencer until BUSY reads 0 (R151): it has no move to come, or it waits (R223). -/
def HostWaits (s : State) : Prop := s.host = [] ∨ ∃ rest, s.host = .awaitIdle :: rest

/-- The step from `s` is the sequencer's (R61, R140): a command is in progress and no fault was raised, the host waits or
passes its turn (a passed turn is gone), and the step is `seqStep`. -/
def SequencerSteps (s : State) : Prop :=
  s.fault = none ∧ s.seqCmd ≠ .none ∧
    ∃ rest, ((HostWaits s ∧ rest = s.host) ∨ s.host = .pass :: rest) ∧ step s = seqStep { s with host := rest }

/-- From `s` the machine takes exactly `n` steps to `u`, where SEQ_CMD is NONE for the first time (R151). -/
def TransmitsIn (s : State) (n : Nat) (u : State) : Prop :=
  runSteps n s = .next u ∧ u.busy = false ∧ ∀ j, j < n → ∃ v, runSteps j s = .next v ∧ v.busy = true

/-- Everything a transmission of stored frames leaves alone: all of the state but the lines, TRACE and the SEQ_
registers. -/
def SameStore (s u : State) : Prop :=
  u.nCells = s.nCells ∧ u.cells = s.cells ∧ u.fault = s.fault ∧ u.resp = s.resp ∧ u.host = s.host ∧ u.reads = s.reads

/-- The channel bits 4..0 of a channel field, in that order (R74). -/
def channelBits (c : Channel) : List Level := [4, 3, 2, 1, 0].map fun j => Level.ofBool (c.getLsbD j)

/-- The commands of the decomposition of `REFRESH n` (R156): START; ENC 0; FRAME 0; ...; END n. -/
def decomposition (n : Index) : List CmdWord :=
  encode .start ::
    ((List.range n.toNat).flatMap fun k => [encode (.enc (.ofNat 16 k)), encode (.frame (.ofNat 16 k))])
    ++ [encode (.endTrain n)]

/-- The slot is UNCREATED, or its frame is ENCODE of its channels (R32). -/
def agrees (m : Memory) (k : Nat) : Bool := (m.read k).all fun c => c.frame == c.encoded

/-- The most steps one move of the host can lead to: itself, and a whole REFRESH of 65535 cells (R221). -/
def stepsPerMove : Nat := 1 + (66 + 50 * 65535)

end Sys2Proof.Machine
end

