-- ==== Sys2Proof/Certificates/Slice0/Obligations.lean ====
section
/-! DEFINITION. The statements about the machine, for the provers. Each docstring names the rule of spec/ it comes from. -/

open Sys2Proof Sys2Proof.Machine

/-! ### The encoder's functions -/

/-- R71: ENCODE bit by bit; only bits 0..4 of a channel are read. -/
def Obligations.EncodeBitByBit : Prop :=
  ∀ r g b : Channel,
    (∀ j, j < 5 →
      (encodeFrame r g b).getLsbD j = g.getLsbD j ∧
      (encodeFrame r g b).getLsbD (5 + j) = r.getLsbD j ∧
      (encodeFrame r g b).getLsbD (10 + j) = b.getLsbD j) ∧
    (encodeFrame r g b).getLsbD 15 = true

/-- R72: ENCODE as a 16-bit number. -/
def Obligations.EncodeAsNumber : Prop :=
  ∀ r g b : Channel,
    encodeFrame r g b =
      0x8000 ||| (b.setWidth 16 &&& 0x1F) <<< 10 ||| (r.setWidth 16 &&& 0x1F) <<< 5 ||| (g.setWidth 16 &&& 0x1F)

/-- R101: each segment is the 5-bit expansion of its channel modulo 32, whatever the other channels. -/
def Obligations.ChannelSegmentsModulo32 : Prop :=
  ∀ r g b : Channel,
    ((encodeFrame r g b).extractLsb' 10 5).toNat = b.toNat % 32 ∧
    ((encodeFrame r g b).extractLsb' 5 5).toNat = r.toNat % 32 ∧
    ((encodeFrame r g b).extractLsb' 0 5).toNat = g.toNat % 32

/-- R102: RAWENCODE copies bits 14..0, sets bit 15, and ignores bit 15 of the code. -/
def Obligations.RawEncodeBits : Prop :=
  ∀ code : BitVec 16,
    (∀ j, j < 15 → (rawEncode code).getLsbD j = code.getLsbD j) ∧
    (rawEncode code).getLsbD 15 = true ∧
    rawEncode code = 0x8000 ||| (code &&& 0x7FFF)

/-! ### Each command's effect, its frame, and that it completes -/

/-- R103: SETC on a slot there is writes the whole record, created or not, and changes nothing else. -/
def Obligations.SetcWritesRecord : Prop :=
  ∀ (s : State) (idx : Index) (r g b : Channel),
    s.fault = none → s.seqCmd = .none → idx.toNat < s.nCells.val →
    ∃ t, exec (.setc idx r g b) s = .next t ∧
      t.cells.read idx.toNat = some ⟨r, g, b, encodeFrame r g b⟩ ∧
      (∀ k, k ≠ idx.toNat → t.cells.read k = s.cells.read k) ∧
      t = { s with cells := t.cells }

/-- R104: ENC re-encodes the frame from the channels, which stay, and changes nothing else. -/
def Obligations.EncReencodesFrame : Prop :=
  ∀ (s : State) (idx : Index) (c : CellRec),
    s.fault = none → s.seqCmd = .none → idx.toNat < s.nCells.val → s.cells.read idx.toNat = some c →
    ∃ t, exec (.enc idx) s = .next t ∧
      t.cells.read idx.toNat = some ⟨c.red, c.green, c.blue, encodeFrame c.red c.green c.blue⟩ ∧
      (∀ k, k ≠ idx.toNat → t.cells.read k = s.cells.read k) ∧
      t = { s with cells := t.cells }

/-- R105, R110: ENCRAW writes the frame from the code; the channels keep their old values; nothing else changes. -/
def Obligations.EncrawWritesFrameOnly : Prop :=
  ∀ (s : State) (idx : Index) (code : BitVec 16) (c : CellRec),
    s.fault = none → s.seqCmd = .none → idx.toNat < s.nCells.val → s.cells.read idx.toNat = some c →
    ∃ t, exec (.encraw idx code) s = .next t ∧
      t.cells.read idx.toNat = some ⟨c.red, c.green, c.blue, rawEncode code⟩ ∧
      (∀ k, k ≠ idx.toNat → t.cells.read k = s.cells.read k) ∧
      t = { s with cells := t.cells }

/-- R106, R27: RDCELL puts the record's fields at their places in RESP, zeros elsewhere, and changes nothing else, cell
memory included. -/
def Obligations.RdcellAnswersInResp : Prop :=
  ∀ (s : State) (idx : Index) (c : CellRec),
    s.fault = none → s.seqCmd = .none → idx.toNat < s.nCells.val → s.cells.read idx.toNat = some c →
    ∃ t, exec (.rdcell idx) s = .next t ∧
      t.resp.extractLsb' 48 16 = 0#16 ∧ t.resp.extractLsb' 32 16 = c.frame ∧ t.resp.extractLsb' 24 8 = 0#8 ∧
      t.resp.extractLsb' 16 8 = c.red ∧ t.resp.extractLsb' 8 8 = c.green ∧ t.resp.extractLsb' 0 8 = c.blue ∧
      t = { s with resp := t.resp }

/-- R132: the acceptance of START. It needs no cell memory, and emits no event. -/
def Obligations.StartIsAccepted : Prop :=
  ∀ s : State, s.fault = none → s.seqCmd = .none →
    exec .start s = .next { s with seqCmd := .start, seqPhase := .sData }

/-- R133: the acceptance of FRAME copies the stored frame, raw or not, and emits no event. -/
def Obligations.FrameIsAccepted : Prop :=
  ∀ (s : State) (idx : Index) (c : CellRec),
    s.fault = none → s.seqCmd = .none → idx.toNat < s.nCells.val → s.cells.read idx.toNat = some c →
    exec (.frame idx) s =
      .next { s with seqCmd := .frame, seqCell := idx, seqFr := c.frame, seqBit := 15, seqPhase := .fData }

/-- R134: the acceptance of END, for every count, also one above N_CELLS. -/
def Obligations.EndIsAccepted : Prop :=
  ∀ (s : State) (m : Index), s.fault = none → s.seqCmd = .none →
    exec (.endTrain m) s = .next { s with seqCmd := .endTrain, seqM := m, seqPhase := .eData }

/-- R135: the acceptance of REFRESH when every cell below the count is there and created. -/
def Obligations.RefreshIsAccepted : Prop :=
  ∀ (s : State) (n : Index), s.fault = none → s.seqCmd = .none → n.toNat ≤ s.nCells.val →
    (∀ k, k < n.toNat → (s.cells.read k).isSome = true) →
    exec (.refresh n) s = .next { s with seqCmd := .refresh, seqN := n, seqM := n, seqPhase := .sData }

/-! ### Faults -/

/-- R182: INDEX_RANGE, and no part of the command runs. END is never checked. -/
def Obligations.IndexOutOfRangeFaults : Prop :=
  ∀ s : State, s.fault = none → s.seqCmd = .none →
    (∀ idx : Index, s.nCells.val ≤ idx.toNat →
      (∀ r g b, exec (.setc idx r g b) s = .next { s with fault := some .indexRange }) ∧
      exec (.enc idx) s = .next { s with fault := some .indexRange } ∧
      (∀ code, exec (.encraw idx code) s = .next { s with fault := some .indexRange }) ∧
      exec (.rdcell idx) s = .next { s with fault := some .indexRange } ∧
      exec (.frame idx) s = .next { s with fault := some .indexRange }) ∧
    (∀ n : Index, s.nCells.val < n.toNat → exec (.refresh n) s = .next { s with fault := some .indexRange }) ∧
    (∀ m : Index, ∃ t, exec (.endTrain m) s = .next t ∧ t.fault = none)

/-- R183: UNCREATED_CELL, and no part of the command runs. SETC never raises it. -/
def Obligations.UncreatedCellFaults : Prop :=
  ∀ s : State, s.fault = none → s.seqCmd = .none →
    (∀ idx : Index, idx.toNat < s.nCells.val → s.cells.read idx.toNat = none →
      exec (.enc idx) s = .next { s with fault := some .uncreatedCell } ∧
      (∀ code, exec (.encraw idx code) s = .next { s with fault := some .uncreatedCell }) ∧
      exec (.rdcell idx) s = .next { s with fault := some .uncreatedCell } ∧
      exec (.frame idx) s = .next { s with fault := some .uncreatedCell }) ∧
    (∀ n : Index, n.toNat ≤ s.nCells.val → (∃ k, k < n.toNat ∧ s.cells.read k = none) →
      exec (.refresh n) s = .next { s with fault := some .uncreatedCell }) ∧
    (∀ (idx : Index) r g b t, exec (.setc idx r g b) s = .next t → t.fault ≠ some .uncreatedCell)

/-- R184: any word issued while BUSY raises BUSY_COMMAND; nothing else changes, and the sequencer has no step left. -/
def Obligations.IssueWhileBusyFaults : Prop :=
  ∀ (s : State) (w : CmdWord), s.fault = none → s.seqCmd ≠ .none →
    issue w s = .next { s with fault := some .busyCommand } ∧
    ({ s with fault := some .busyCommand } : State).seqEnabled = false ∧
    ({ s with fault := some .busyCommand } : State).status = 0x43

/-- R181, R81: which words are ILLEGAL, and that issuing one on an idle block raises ILLEGAL_COMMAND and does nothing
else. -/
def Obligations.IllegalWordsFault : Prop :=
  ∀ w : CmdWord,
    ((∃ why, decode w = .illegal why) ↔
      ((w.extractLsb' 60 4).toNat = 0 ∨ 9 ≤ (w.extractLsb' 60 4).toNat ∨
        ∃ j, mustBeZero (w.extractLsb' 60 4).toNat j = true ∧ w.getLsbD j = true)) ∧
    (∀ (s : State) (why : IllegalWord), s.fault = none → s.seqCmd = .none → decode w = .illegal why →
      issue w s = .next { s with fault := some .illegalCommand })

/-- R186: a fault is sticky. -/
def Obligations.FaultIsSticky : Prop :=
  ∀ s : State, s.fault ≠ none →
    s.seqEnabled = false ∧
    (∀ w, issue w s = .next s) ∧
    (∀ t, step s = .next t → t = { s with host := t.host, reads := t.reads }) ∧
    s.runEnded = false ∧
    (∀ rest, s.host = .readStatus :: rest →
      step s = .next { s with host := rest, reads := s.reads ++ [.status s.status] }) ∧
    (∀ rest, s.host = .readResp :: rest →
      step s = .next { s with host := rest, reads := s.reads ++ [.resp s.resp] }) ∧
    (s.fault = some .busyCommand → s.seqCmd ≠ .none → s.status = 0x43)

/-- R187: the checks of an issue in their order, at most one fault, and none from a sequencer step. -/
def Obligations.FaultPriority : Prop :=
  (∀ (s : State) (w : CmdWord), s.fault ≠ none → issue w s = .next s) ∧
  (∀ (s : State) (w : CmdWord) (c : FaultCode), s.fault = none → faultDue w s = some c →
    issue w s = .next { s with fault := some c }) ∧
  (∀ (s : State) (w : CmdWord), s.fault = none → faultDue w s = none →
    ∃ t, issue w s = .next t ∧ t.fault = none) ∧
  (∀ s t : State, seqStep s = .next t → t.fault = s.fault)

/-! ### The registers the host reads -/

/-- R23, R26: the STATUS word, field by field, and its read, which has no side effect. -/
def Obligations.StatusFields : Prop :=
  ∀ s : State,
    s.status.getLsbD 0 = decide (s.seqCmd ≠ .none) ∧
    s.status.getLsbD 1 = s.fault.isSome ∧
    s.status.extractLsb' 2 2 = 0#2 ∧
    s.status.extractLsb' 4 4 =
      (match s.fault with
        | none => 0#4
        | some .illegalCommand => 1#4
        | some .indexRange => 2#4
        | some .uncreatedCell => 3#4
        | some .busyCommand => 4#4) ∧
    s.status.extractLsb' 8 24 = 0#24 ∧
    (∀ rest, s.host = .readStatus :: rest →
      step s = .next { s with host := rest, reads := s.reads ++ [.status s.status] })

/-- R24, R150: the acceptance of START, FRAME, END or REFRESH, and nothing else, sets BUSY; only the sequencer's finish step, in one of
the four phases that can finish, clears it, and it emits one event. -/
def Obligations.BusySetAndCleared : Prop :=
  (∀ s : State, s.status.getLsbD 0 = true ↔ s.seqCmd ≠ .none) ∧
  (∀ (s t : State) (i : Instr), s.fault = none → s.seqCmd = .none → exec i s = .next t → t.fault = none →
    (t.seqCmd ≠ .none ↔ i = .start ∨ (∃ idx, i = .frame idx) ∨ (∃ m, i = .endTrain m) ∨ ∃ n, i = .refresh n)) ∧
  ∀ s t : State, step s = .next t →
    (s.seqCmd = .none → t.seqCmd ≠ .none →
      ∃ w rest i, s.host = .issue w :: rest ∧ decode w = .cmd i ∧
        (i = .start ∨ (∃ idx, i = .frame idx) ∨ (∃ m, i = .endTrain m) ∨ ∃ n, i = .refresh n)) ∧
    (s.seqCmd ≠ .none → t.seqCmd = .none →
      SequencerSteps s ∧
        (s.seqPhase = .sLo ∨ s.seqPhase = .fLo ∨ s.seqPhase = .eData ∨ s.seqPhase = .eLo) ∧
        ∃ e, t.trace = s.trace ++ [e])

/-- R28: RESP is 0 at launch, only RDCELL writes it, and its read has no side effect. -/
def Obligations.RespOnlyByRdcell : Prop :=
  (∀ n m, (State.launch n m).resp = 0) ∧
  (∀ s t : State, step s = .next t → t.resp ≠ s.resp →
    ∃ w rest idx, s.host = .issue w :: rest ∧ decode w = .cmd (.rdcell idx)) ∧
  (∀ (s : State) rest, s.host = .readResp :: rest →
    step s = .next { s with host := rest, reads := s.reads ++ [.resp s.resp] })

/-! ### The sequencer's phases -/

/-- R141, R142, R143: the phases of the start segment. -/
def Obligations.StartPhaseSteps : Prop :=
  ∀ s : State,
    (s.seqPhase = .sData → seqStep s =
      .next { s with outData := .lo, trace := s.trace ++ [⟨.data, false⟩], seqCnt := 0, seqPhase := .sHi }) ∧
    (s.seqPhase = .sHi → seqStep s =
      .next { s with outClk := .hi, trace := s.trace ++ [⟨.clk, true⟩], seqPhase := .sLo }) ∧
    (s.seqPhase = .sLo → s.seqCnt.toNat + 1 < 32 → seqStep s =
      .next { s with outClk := .lo, trace := s.trace ++ [⟨.clk, false⟩], seqCnt := s.seqCnt + 1, seqPhase := .sHi }) ∧
    (s.seqPhase = .sLo → 32 ≤ s.seqCnt.toNat + 1 → s.seqCmd = .start → seqStep s =
      .next { s with outClk := .lo, trace := s.trace ++ [⟨.clk, false⟩], seqCnt := s.seqCnt + 1, seqCmd := .none }) ∧
    (s.seqPhase = .sLo → 32 ≤ s.seqCnt.toNat + 1 → s.seqCmd ≠ .start → s.seqN = 0 → seqStep s =
      .next { s with outClk := .lo, trace := s.trace ++ [⟨.clk, false⟩], seqCnt := s.seqCnt + 1,
                     seqPhase := .eData }) ∧
    (s.seqPhase = .sLo → 32 ≤ s.seqCnt.toNat + 1 → s.seqCmd ≠ .start → s.seqN ≠ 0 → seqStep s =
      .next { s with outClk := .lo, trace := s.trace ++ [⟨.clk, false⟩], seqCnt := s.seqCnt + 1,
                     seqCell := 0, seqBit := 15, seqPhase := .fData })

/-- R144, R145, R146: the phases of the frame segment. In a good state a REFRESH finds its cell created. -/
def Obligations.FramePhaseSteps : Prop :=
  ∀ s : State,
    (∀ c : CellRec, s.seqPhase = .fData → s.seqCmd = .refresh → s.seqBit = 15 →
      s.cells.read s.seqCell.toNat = some c → seqStep s =
      .next { s with
        cells := s.cells.write s.seqCell.toNat ⟨c.red, c.green, c.blue, encodeFrame c.red c.green c.blue⟩,
        seqFr := encodeFrame c.red c.green c.blue,
        outData := Level.ofBool ((encodeFrame c.red c.green c.blue).getLsbD 15),
        trace := s.trace ++ [⟨.data, (encodeFrame c.red c.green c.blue).getLsbD 15⟩], seqPhase := .fHi }) ∧
    (s.seqPhase = .fData → s.seqCmd = .refresh → s.seqBit = 15 → Inv s →
      (s.cells.read s.seqCell.toNat).isSome = true) ∧
    (s.seqPhase = .fData → ¬ (s.seqCmd = .refresh ∧ s.seqBit = 15) → seqStep s =
      .next { s with outData := Level.ofBool (s.seqFr.getLsbD s.seqBit.toNat),
                     trace := s.trace ++ [⟨.data, s.seqFr.getLsbD s.seqBit.toNat⟩], seqPhase := .fHi }) ∧
    (s.seqPhase = .fHi → seqStep s =
      .next { s with outClk := .hi, trace := s.trace ++ [⟨.clk, true⟩], seqPhase := .fLo }) ∧
    (s.seqPhase = .fLo → s.seqBit ≠ 0 → seqStep s =
      .next { s with outClk := .lo, trace := s.trace ++ [⟨.clk, false⟩], seqBit := s.seqBit - 1,
                     seqPhase := .fData }) ∧
    (s.seqPhase = .fLo → s.seqBit = 0 → s.seqCmd = .frame → seqStep s =
      .next { s with outClk := .lo, trace := s.trace ++ [⟨.clk, false⟩], seqCmd := .none }) ∧
    (s.seqPhase = .fLo → s.seqBit = 0 → s.seqCmd ≠ .frame → s.seqCell.toNat + 1 < s.seqN.toNat → seqStep s =
      .next { s with outClk := .lo, trace := s.trace ++ [⟨.clk, false⟩], seqCell := s.seqCell + 1, seqBit := 15,
                     seqPhase := .fData }) ∧
    (s.seqPhase = .fLo → s.seqBit = 0 → s.seqCmd ≠ .frame → s.seqN.toNat ≤ s.seqCell.toNat + 1 → seqStep s =
      .next { s with outClk := .lo, trace := s.trace ++ [⟨.clk, false⟩], seqPhase := .eData })

/-- R147, R148, R149: the phases of the end segment. -/
def Obligations.EndPhaseSteps : Prop :=
  ∀ s : State,
    (s.seqPhase = .eData → s.seqM = 0 → seqStep s =
      .next { s with outData := .lo, trace := s.trace ++ [⟨.data, false⟩], seqCnt := 0, seqCmd := .none }) ∧
    (s.seqPhase = .eData → s.seqM ≠ 0 → seqStep s =
      .next { s with outData := .lo, trace := s.trace ++ [⟨.data, false⟩], seqCnt := 0, seqPhase := .eHi }) ∧
    (s.seqPhase = .eHi → seqStep s =
      .next { s with outClk := .hi, trace := s.trace ++ [⟨.clk, true⟩], seqPhase := .eLo }) ∧
    (s.seqPhase = .eLo → s.seqCnt.toNat + 1 < s.seqM.toNat → seqStep s =
      .next { s with outClk := .lo, trace := s.trace ++ [⟨.clk, false⟩], seqCnt := s.seqCnt + 1, seqPhase := .eHi }) ∧
    (s.seqPhase = .eLo → s.seqM.toNat ≤ s.seqCnt.toNat + 1 → seqStep s =
      .next { s with outClk := .lo, trace := s.trace ++ [⟨.clk, false⟩], seqCnt := s.seqCnt + 1, seqCmd := .none })

/-- R140: while the host waits, the sequencer steps whenever a command is in progress and no fault was raised, and each
such step emits exactly one line event; with the host silent nothing else happens. -/
def Obligations.OneEventPerSequencerStep : Prop :=
  ∀ s : State, Inv s →
    (HostWaits s → s.seqCmd ≠ .none → s.fault = none →
      ∃ t e, step s = .next t ∧ seqStep s = .next t ∧ t.trace = s.trace ++ [e]) ∧
    (s.host = [] → ¬ (s.seqCmd ≠ .none ∧ s.fault = none) → ∀ t, step s = .next t → t = s)

/-! ### Whole transmissions -/

/-- R151, R136, R159, for START: 65 steps, TRACE_START, and both lines at 0. -/
def Obligations.StartSegmentIsSent : Prop :=
  ∀ s : State, s.fault = none → s.seqCmd = .none → HostWaits s →
    ∃ t u, exec .start s = .next t ∧ TransmitsIn t 65 u ∧
      u.trace = s.trace ++ traceStart ∧ u.outData = .lo ∧ u.outClk = .lo ∧ SameStore s u

/-- R151, R137, R159, for FRAME: 48 steps, TRACE_FRAME of the stored frame, DATA left at its bit 0. -/
def Obligations.StoredFrameIsSent : Prop :=
  ∀ (s : State) (idx : Index) (c : CellRec), s.fault = none → s.seqCmd = .none → HostWaits s →
    idx.toNat < s.nCells.val → s.cells.read idx.toNat = some c →
    ∃ t u, exec (.frame idx) s = .next t ∧ TransmitsIn t 48 u ∧
      u.trace = s.trace ++ traceFrame c.frame ∧
      u.outData = Level.ofBool (c.frame.getLsbD 0) ∧ u.outClk = .lo ∧ SameStore s u

/-- R151, R138, R159, for END: 1 + 2m steps, TRACE_END(m); CLK is not touched when m is 0. -/
def Obligations.EndSegmentIsSent : Prop :=
  ∀ (s : State) (m : Index), s.fault = none → s.seqCmd = .none → HostWaits s →
    ∃ t u, exec (.endTrain m) s = .next t ∧ TransmitsIn t (1 + 2 * m.toNat) u ∧
      u.trace = s.trace ++ traceEnd m.toNat ∧ u.outData = .lo ∧
      u.outClk = (if m = 0 then s.outClk else .lo) ∧ SameStore s u

/-- R151, R139, R155, R159, for REFRESH: 66 + 50n steps, TRACE_REFRESH of the cells as they stood at acceptance, each
cell below n re-encoded from its channels, every other cell as it was, both lines at 0. -/
def Obligations.RefreshSendsWholeStrip : Prop :=
  ∀ (s : State) (n : Index), s.fault = none → s.seqCmd = .none → HostWaits s → n.toNat ≤ s.nCells.val →
    (∀ k, k < n.toNat → (s.cells.read k).isSome = true) →
    ∃ t u, exec (.refresh n) s = .next t ∧ TransmitsIn t (66 + 50 * n.toNat) u ∧
      u.trace = s.trace ++ traceRefresh (s.cells.slice 0 n.toNat) ∧
      (∀ k, k < n.toNat → u.cells.read k = (s.cells.read k).map CellRec.reencoded) ∧
      (∀ k, n.toNat ≤ k → u.cells.read k = s.cells.read k) ∧
      u.outData = .lo ∧ u.outClk = .lo ∧
      u.nCells = s.nCells ∧ u.fault = none ∧ u.resp = s.resp ∧ u.host = s.host ∧ u.reads = s.reads

/-- R157: REFRESH 0 sends the start segment and an end segment of no pulse, 66 events and 32 pulses, whatever cells there
are, and leaves cell memory as it was. -/
def Obligations.EmptyRefreshIsSent : Prop :=
  (traceStart ++ traceEnd 0).length = 66 ∧ pulseCount (traceStart ++ traceEnd 0) = 32 ∧
    ∀ s : State, s.fault = none → s.seqCmd = .none → HostWaits s →
      ∃ t u, exec (.refresh 0) s = .next t ∧ TransmitsIn t 66 u ∧
        u.trace = s.trace ++ (traceStart ++ traceEnd 0) ∧ u.cells = s.cells

/-- R216: a raw frame on a cell below n is overwritten by REFRESH n and never sent: the strip gets the same events, and
cell memory ends the same, as with no ENCRAW. -/
def Obligations.RefreshDiscardsRawFrame : Prop :=
  ∀ (s : State) (n k : Index) (code : BitVec 16) (c : CellRec),
    s.fault = none → s.seqCmd = .none → HostWaits s → n.toNat ≤ s.nCells.val →
    (∀ j, j < n.toNat → (s.cells.read j).isSome = true) → k.toNat < n.toNat → s.cells.read k.toNat = some c →
    ∃ raw t u t' u', exec (.encraw k code) s = .next raw ∧
      exec (.refresh n) raw = .next t ∧ TransmitsIn t (66 + 50 * n.toNat) u ∧
      exec (.refresh n) s = .next t' ∧ TransmitsIn t' (66 + 50 * n.toNat) u' ∧
      u.trace = u'.trace ∧ (∀ j, u.cells.read j = u'.cells.read j) ∧
      u.cells.read k.toNat = some ⟨c.red, c.green, c.blue, encodeFrame c.red c.green c.blue⟩

/-- R156: the decomposition of REFRESH. A well-behaved host that issues START; ENC 0; FRAME 0; ...; END n ends with the
same TRACE, cell memory and STATUS as one that issues REFRESH n. -/
def Obligations.RefreshDecomposes : Prop :=
  ∀ (s : State) (n : Index), s.fault = none → s.seqCmd = .none → n.toNat ≤ s.nCells.val →
    (∀ k, k < n.toNat → (s.cells.read k).isSome = true) →
    ∃ a b u v,
      runSteps a (s.withHost (hostProgram (decomposition n))) = .next u ∧ u.runEnded = true ∧
      runSteps b (s.withHost (hostProgram [encode (.refresh n)])) = .next v ∧ v.runEnded = true ∧
      u.trace = v.trace ∧ u.cells = v.cells ∧ u.status = v.status

/-- R151: how many sequencer steps a command has before it right after its acceptance, and that each sequencer step in a
good state is one of them. -/
def Obligations.StepsLeftCountDown : Prop :=
  (∀ s : State, Inv s → s.seqCmd ≠ .none → ∃ t, seqStep s = .next t ∧ t.stepsLeft + 1 = s.stepsLeft) ∧
  (∀ s : State, Inv s → (s.stepsLeft = 0 ↔ s.seqCmd = .none)) ∧
  (∀ s t : State, s.fault = none → s.seqCmd = .none →
    (exec .start s = .next t → t.stepsLeft = 65) ∧
    (∀ idx, exec (.frame idx) s = .next t → t.fault = none → t.stepsLeft = 48) ∧
    (∀ m, exec (.endTrain m) s = .next t → t.stepsLeft = 1 + 2 * m.toNat) ∧
    (∀ n, exec (.refresh n) s = .next t → t.fault = none → t.stepsLeft = 66 + 50 * n.toNat))

/-- R221: from every good state, whatever moves the host has left, within a bounded number of steps the run has ended and
the host has made all its moves, or the block is faulted. -/
def Obligations.EveryRunEnds : Prop :=
  ∀ s : State, Inv s →
    ∃ k t, k ≤ s.stepsLeft + s.host.length * stepsPerMove ∧ runSteps k s = .next t ∧
      ((t.runEnded = true ∧ t.host = []) ∨ t.fault ≠ none)

/-! ### What the wire carries -/

/-- R161, R74: the transmitted bits of a REFRESH, whatever DATA stood at before. -/
def Obligations.TransmittedBitsOfRefresh : Prop :=
  ∀ (d : Level) (cs : List CellRec),
    bitsFrom d (traceRefresh cs) =
      List.replicate 32 Level.lo ++
      cs.flatMap (fun c => Level.hi :: (channelBits c.blue ++ channelBits c.red ++ channelBits c.green)) ++
      List.replicate cs.length Level.lo ∧
    (bitsFrom d (traceRefresh cs)).length = 32 + 17 * cs.length

/-- R152: the rows of its table, the counts of pulses, DATA events and events. The DATA level is DataHeldLow's (R153). -/
def Obligations.TraceCounts : Prop :=
  (pulseCount traceStart = 32 ∧ dataCount traceStart = 1 ∧ traceStart.length = 65) ∧
  (∀ f, pulseCount (traceFrame f) = 16 ∧ dataCount (traceFrame f) = 16 ∧ (traceFrame f).length = 48) ∧
  (∀ m, pulseCount (traceEnd m) = m ∧ dataCount (traceEnd m) = 1 ∧ (traceEnd m).length = 1 + 2 * m) ∧
  (∀ cs, pulseCount (traceRefresh cs) = 32 + 17 * cs.length ∧ dataCount (traceRefresh cs) = 2 + 16 * cs.length ∧
    (traceRefresh cs).length = 66 + 50 * cs.length)

/-- R153: within a start or an end segment no DATA event follows the first event, which drives DATA to 0, and DATA is 0
at every pulse. -/
def Obligations.DataHeldLow : Prop :=
  ∀ (d : Level),
    (∃ rest, traceStart = ⟨.data, false⟩ :: rest ∧ (∀ e ∈ rest, e.line = .clk) ∧
      bitsFrom d traceStart = List.replicate 32 Level.lo) ∧
    (∀ m, ∃ rest, traceEnd m = ⟨.data, false⟩ :: rest ∧ (∀ e ∈ rest, e.line = .clk) ∧
      bitsFrom d (traceEnd m) = List.replicate m Level.lo)

/-- R154: DATA is stable across every pulse, in the four traces and in every step of a good state: no DATA event while
CLK is 1, and after CLK goes to 1 the next event takes it to 0. -/
def Obligations.DataMovesOnlyWhileClockLow : Prop :=
  (clockScan traceStart = some false ∧ (∀ f, clockScan (traceFrame f) = some false) ∧
    (∀ m, clockScan (traceEnd m) = some false) ∧ ∀ cs, clockScan (traceRefresh cs) = some false) ∧
  ∀ s t : State, Inv s → step s = .next t →
    t.trace = s.trace ∨
    ∃ e, t.trace = s.trace ++ [e] ∧ (e.line = .data → s.outClk ≠ .hi) ∧ (s.outClk = .hi → e = ⟨.clk, false⟩)

/-- R34, R163: a step that is not the sequencer's leaves TRACE and both lines as they were; a sequencer step appends one
event, and the line of the event takes its value while the other keeps its level. -/
def Obligations.OnlySequencerDrivesLines : Prop :=
  (∀ n m, (State.launch n m).trace = []) ∧
  ∀ s t : State, step s = .next t →
    (t.trace = s.trace ∧ t.outData = s.outData ∧ t.outClk = s.outClk) ∨
    (SequencerSteps s ∧ ∃ e, t.trace = s.trace ++ [e] ∧
      (e.line = .data → t.outData = Level.ofBool e.value ∧ t.outClk = s.outClk) ∧
      (e.line = .clk → t.outClk = Level.ofBool e.value ∧ t.outData = s.outData))

/-! ### Invariants and whole-machine rules -/

/-- The state right after reset has the invariant. -/
def Obligations.ResetIsGood : Prop := Inv State.reset

/-- R210: every valid launch has the invariant, whatever N_CELLS and CELLS0. -/
def Obligations.ValidLaunchIsGood : Prop :=
  ∀ (n : Fin 65536) (cells0 : Memory), launchValid n cells0 = true → Inv (State.launch n cells0)

/-- Every step of the machine keeps the invariant. -/
def Obligations.StepKeepsInv : Prop :=
  ∀ s t : State, Inv s → step s = .next t → Inv t

/-- R186, R222: in a good state the model never refuses, and it stops exactly when the block is faulted and the host has
no move it can make. -/
def Obligations.StopsOnlyWhenFaulted : Prop :=
  ∀ s : State, Inv s →
    (∀ r, step s ≠ .refused r) ∧
    (∀ f, step s = .fault f ↔
      f = .blockStopped ∧ s.fault ≠ none ∧
        (s.host = [] ∨ ∃ rest, s.host = .awaitIdle :: rest ∧ s.seqCmd ≠ .none))

/-- R30, R31: every step keeps cell memory's canonical form, its range, and the flag bit of every created cell, in any
state where they hold. -/
def Obligations.CellMemoryStaysGood : Prop :=
  ∀ s t : State,
    s.cells.wf = true → s.cells.inRange s.nCells.val = true → s.cells.flagged = true → step s = .next t →
    t.cells.wf = true ∧ t.cells.inRange t.nCells.val = true ∧ t.cells.flagged = true

/-- R30: no step makes a created slot UNCREATED, and only SETC on the slot makes an UNCREATED one created. N_CELLS never
changes. -/
def Obligations.CreatedOnlyBySetc : Prop :=
  ∀ s t : State, step s = .next t →
    t.nCells = s.nCells ∧
    ∀ k,
      ((s.cells.read k).isSome = true → (t.cells.read k).isSome = true) ∧
      (s.cells.read k = none → (t.cells.read k).isSome = true →
        ∃ w rest idx r g b, s.host = .issue w :: rest ∧ decode w = .cmd (.setc idx r g b) ∧ idx.toNat = k)

/-- R32, R215: a cell whose frame agrees with its channels (or that is UNCREATED) goes on agreeing, unless the host issues
ENCRAW on it. -/
def Obligations.OnlyEncrawBreaksAgreement : Prop :=
  ∀ (s t : State) (k : Nat), step s = .next t → agrees s.cells k = true → agrees t.cells k = false →
    ∃ w rest idx code, s.host = .issue w :: rest ∧ decode w = .cmd (.encraw idx code) ∧ idx.toNat = k

/-- R37: a START, FRAME or END passes only through its own segment and back to Idle; a REFRESH enters at Start and goes
Start, then Frame (or End at once, with no cells), then End, then Idle, never back. -/
def Obligations.SegmentsInOrder : Prop :=
  ∀ s t : State, Inv s → step s = .next t →
    (s.seqCmd = .start → t.segment = .start ∨ t.segment = .idle) ∧
    (s.seqCmd = .frame → t.segment = .frame ∨ t.segment = .idle) ∧
    (s.seqCmd = .endTrain → t.segment = .endTrain ∨ t.segment = .idle) ∧
    (s.seqCmd = .none → t.seqCmd = .refresh → t.segment = .start) ∧
    (s.seqCmd = .refresh → s.segment = .start →
      t.segment = .start ∨ (s.seqN ≠ 0 ∧ t.segment = .frame) ∨ (s.seqN = 0 ∧ t.segment = .endTrain)) ∧
    (s.seqCmd = .refresh → s.segment = .frame → t.segment = .frame ∨ t.segment = .endTrain) ∧
    (s.seqCmd = .refresh → s.segment = .endTrain → t.segment = .endTrain ∨ t.segment = .idle)

/-- R222, R197: the three conditions of the end of a run, and that a run that has ended stays ended with the whole block
as it was: what the host still does is wait, pass or read, and each value it reads is the STATUS or the RESP of the end.
The model's choices: that a step of an idle block with a silent host answers its own state (log entry 5), and that a wait
and a passed turn on it are over in a step of their own (log entries 13 and 3). -/
def Obligations.EndedRunStaysEnded : Prop :=
  (∀ s : State, s.runEnded = true ↔
    (∀ w, HostMove.issue w ∉ s.host) ∧ s.seqCmd = .none ∧ s.status.getLsbD 1 = false) ∧
  ∀ (s : State) (k : Nat), s.runEnded = true →
    ∃ later, runSteps k s = .next { s with host := s.host.drop k, reads := s.reads ++ later } ∧
      ({ s with host := s.host.drop k, reads := s.reads ++ later } : State).runEnded = true ∧
      (∀ r ∈ later, r = .status s.status ∨ r = .resp s.resp) ∧
      (s.host = [] → later = [])

/-- R217, R223: a host that issues only when it knows BUSY to read 0 never raises BUSY_COMMAND, and the host of R223 is
one. -/
def Obligations.WellBehavedHostNeverFaultsBusy : Prop :=
  (∀ s t : State, s.fault ≠ some .busyCommand → wellBehaved (!s.busy) s.host = true → step s = .next t →
    t.fault ≠ some .busyCommand ∧ wellBehaved (!t.busy) t.host = true) ∧
  ∀ (b : Bool) (ws : List CmdWord), wellBehaved b (hostProgram ws) = true

/-- R108: a second ENC on the same cell changes nothing. -/
def Obligations.EncIsIdempotent : Prop :=
  ∀ (s : State) (idx : Index) (c : CellRec),
    s.fault = none → s.seqCmd = .none → idx.toNat < s.nCells.val → s.cells.read idx.toNat = some c →
    ∃ t, exec (.enc idx) s = .next t ∧ exec (.enc idx) t = .next t

/-- R109: after SETC or ENC the frame is a function of the current channels alone: two states that differ in anything
else of the cell, its old frame included, end with the same frame. -/
def Obligations.NoStaleBits : Prop :=
  ∀ (s s' : State) (idx : Index), s.fault = none → s.seqCmd = .none → idx.toNat < s.nCells.val →
    s'.fault = none → s'.seqCmd = .none → idx.toNat < s'.nCells.val →
    (∀ r g b, ∃ t t', exec (.setc idx r g b) s = .next t ∧ exec (.setc idx r g b) s' = .next t' ∧
      t.cells.read idx.toNat = t'.cells.read idx.toNat) ∧
    (∀ (r g b : Channel) (f f' : Frame), s.cells.read idx.toNat = some ⟨r, g, b, f⟩ →
      s'.cells.read idx.toNat = some ⟨r, g, b, f'⟩ →
      ∃ t t', exec (.enc idx) s = .next t ∧ exec (.enc idx) s' = .next t' ∧
        t.cells.read idx.toNat = t'.cells.read idx.toNat)

/-- Two cell memories in canonical form with the same reads are the same data. -/
def Obligations.EqualReadsEqualMemories : Prop :=
  ∀ m m' : Memory, m.wf = true → m'.wf = true → (∀ k, m.read k = m'.read k) → m = m'

/-! ### The command word -/

/-- R78, R80: decoding the word of a command gives the command back, every operand at every value. -/
def Obligations.DecodeOfEncode : Prop :=
  ∀ i : Instr, decode (encode i) = .cmd i

/-- R80: each legal word is the word of the command it decodes to: no bit of it is dropped. -/
def Obligations.EncodeOfDecode : Prop :=
  ∀ (w : CmdWord) (i : Instr), decode w = .cmd i → encode i = w

/-- R77, R78: the decoder and the opcode table agree: a word is a command exactly when it is of a row, of one row only,
and the row is its command's. -/
def Obligations.DecoderFollowsOpcodeTable : Prop :=
  ∀ w : CmdWord,
    ((∃ i, decode w = .cmd i) ↔ ∃ row ∈ opcodeTable, row.holds w = true) ∧
    (∀ row row', row ∈ opcodeTable → row' ∈ opcodeTable → row.holds w = true → row'.holds w = true → row = row') ∧
    (∀ i, decode w = .cmd i → (opcodeRow i).holds w = true)

/-- R130: a step in which the host issues a word is the issue of that word, the move gone from the host's list; so is the
step after the word is put first. The issue of a word that decodes to a command is `exec` of the command; that of an
ILLEGAL word has no effect on a faulted block, raises BUSY_COMMAND on a busy one and ILLEGAL_COMMAND on an idle one. -/
def Obligations.StepIssuesDecodedCommand : Prop :=
  ∀ (s : State) (w : CmdWord),
    (∀ rest, s.host = .issue w :: rest → step s = issue w { s with host := rest }) ∧
    step (s.withFetchWord 64 w.toNat) = issue w s ∧
    (∀ i, decode w = .cmd i → issue w s = exec i s) ∧
    (∀ why, decode w = .illegal why →
      (s.fault ≠ none → issue w s = .next s) ∧
      (s.fault = none → s.seqCmd ≠ .none → issue w s = .next { s with fault := some .busyCommand }) ∧
      (s.fault = none → s.seqCmd = .none → issue w s = .next { s with fault := some .illegalCommand }))

/-- R61, R140: the turns in which the host makes no move on the block are the sequencer's whenever it has a step. The
model's choices: that a wait (R223 says only that the host waits until BUSY reads 0) leaves each turn to the sequencer
while BUSY is 1 and is over in a step of its own once it is 0 (log entry 13); the passed turn, a move of the model's host
(log entry 3); and what a turn does that nobody can take (log entries 5 and 6). -/
def Obligations.WaitsAndPassedTurns : Prop :=
  ∀ s : State,
    (∀ rest, s.host = .awaitIdle :: rest → s.seqCmd = .none → step s = .next { s with host := rest }) ∧
    (HostWaits s → s.seqCmd ≠ .none → s.fault = none → step s = seqStep s) ∧
    (HostWaits s → s.seqCmd ≠ .none → s.fault ≠ none → step s = .fault .blockStopped) ∧
    (∀ rest, s.host = .pass :: rest →
      (s.seqCmd ≠ .none → s.fault = none → step s = seqStep { s with host := rest }) ∧
      (¬ (s.seqCmd ≠ .none ∧ s.fault = none) → step s = .next { s with host := rest })) ∧
    (s.host = [] → s.seqCmd = .none →
      (s.fault = none → step s = .next s) ∧ (s.fault ≠ none → step s = .fault .blockStopped))

/-- R78, R80: words written out from the encoding patterns, and what they decode to. -/
def Obligations.SampleWordsDecode : Prop :=
  decode 0b0001000000000000000000000000001100000000110010000110010000000111 = .cmd (.setc 3 200 100 7) ∧
  decode 0b0011000000000000000000000000000000000000000000001000000000000000 = .cmd (.encraw 0 0x8000) ∧
  decode 0b0101000000000000000000000000000000000000000000000000000000000000 = .cmd .start ∧
  decode 0b0111000000000000000000001111111100000000000000000000000000000000 = .cmd (.endTrain 255) ∧
  decode 0b1000000000000000000000000000001000000000000000000000000000000000 = .cmd (.refresh 2) ∧
  decode 0b0010000000000000000000000000001100000000000000000000000000000001 = .illegal (.reservedBit 2)

/-- R39: the launch values, and the record INIT gives a cell. (The SEQ_ registers other than SEQ_CMD are unspecified and
are not named here.) -/
def Obligations.LaunchValues : Prop :=
  (∀ (n : Fin 65536) (cells0 : Memory),
    (State.launch n cells0).status = 0 ∧ (State.launch n cells0).resp = 0 ∧
    (State.launch n cells0).outData = .z ∧ (State.launch n cells0).outClk = .z ∧
    (State.launch n cells0).trace = [] ∧ (State.launch n cells0).seqCmd = .none ∧
    (State.launch n cells0).cells = cells0) ∧
  (∀ k, State.reset.cells.read k = none) ∧
  (∀ i, i < 65536 → assemble ⟨.init, [i]⟩ = some (encode (.setc (.ofNat 16 i) 0 0 0))) ∧
  (∀ (s : State) (idx : Index), s.fault = none → s.seqCmd = .none → idx.toNat < s.nCells.val →
    ∃ t, exec (.setc idx 0 0 0) s = .next t ∧ t.cells.read idx.toNat = some ⟨0, 0, 0, 0x8000⟩)

/-- R84, R85, R86: the word of each line, as the number R84 gives, and the refusal of a line whose operands are not as
many as its mnemonic takes or do not fit their fields. -/
def Obligations.AssemblerWords : Prop :=
  (∀ i r g b, i < 65536 → r < 256 → g < 256 → b < 256 →
    (assemble ⟨.setc, [i, r, g, b]⟩).map BitVec.toNat =
      some (1 * 2 ^ 60 + i * 2 ^ 32 + r * 2 ^ 16 + g * 2 ^ 8 + b)) ∧
  (∀ i code, i < 65536 → code < 65536 →
    (assemble ⟨.encraw, [i, code]⟩).map BitVec.toNat = some (3 * 2 ^ 60 + i * 2 ^ 32 + code)) ∧
  (∀ i, i < 65536 →
    (assemble ⟨.enc, [i]⟩).map BitVec.toNat = some (2 * 2 ^ 60 + i * 2 ^ 32) ∧
    (assemble ⟨.rdcell, [i]⟩).map BitVec.toNat = some (4 * 2 ^ 60 + i * 2 ^ 32) ∧
    (assemble ⟨.frame, [i]⟩).map BitVec.toNat = some (6 * 2 ^ 60 + i * 2 ^ 32) ∧
    (assemble ⟨.endTrain, [i]⟩).map BitVec.toNat = some (7 * 2 ^ 60 + i * 2 ^ 32) ∧
    (assemble ⟨.refresh, [i]⟩).map BitVec.toNat = some (8 * 2 ^ 60 + i * 2 ^ 32) ∧
    (assemble ⟨.init, [i]⟩).map BitVec.toNat = some (1 * 2 ^ 60 + i * 2 ^ 32)) ∧
  (assemble ⟨.start, []⟩).map BitVec.toNat = some (5 * 2 ^ 60) ∧
  (∀ l : AsmLine, l.operands.length ≠ l.op.widths.length → assemble l = none) ∧
  (∀ (l : AsmLine) (j v n : Nat), l.operands[j]? = some v → l.op.widths[j]? = some n → 2 ^ n ≤ v →
    assemble l = none)
end

