-- ==== Sys2Proof/Laws/State.lean ====
section
/-! SUPPORT. One lemma per field for each update of the state, so that no proof unfolds a record update. -/

namespace Sys2Proof.Machine

@[simp] theorem State.raiseFault_nCells (s : State) (c : FaultCode) : (s.raiseFault c).nCells = s.nCells := rfl
@[simp] theorem State.raiseFault_cells (s : State) (c : FaultCode) : (s.raiseFault c).cells = s.cells := rfl
@[simp] theorem State.raiseFault_fault (s : State) (c : FaultCode) : (s.raiseFault c).fault = some c := rfl
@[simp] theorem State.raiseFault_resp (s : State) (c : FaultCode) : (s.raiseFault c).resp = s.resp := rfl
@[simp] theorem State.raiseFault_outData (s : State) (c : FaultCode) : (s.raiseFault c).outData = s.outData := rfl
@[simp] theorem State.raiseFault_outClk (s : State) (c : FaultCode) : (s.raiseFault c).outClk = s.outClk := rfl
@[simp] theorem State.raiseFault_trace (s : State) (c : FaultCode) : (s.raiseFault c).trace = s.trace := rfl
@[simp] theorem State.raiseFault_seqCmd (s : State) (c : FaultCode) : (s.raiseFault c).seqCmd = s.seqCmd := rfl
@[simp] theorem State.raiseFault_seqPhase (s : State) (c : FaultCode) : (s.raiseFault c).seqPhase = s.seqPhase := rfl
@[simp] theorem State.raiseFault_seqCnt (s : State) (c : FaultCode) : (s.raiseFault c).seqCnt = s.seqCnt := rfl
@[simp] theorem State.raiseFault_seqCell (s : State) (c : FaultCode) : (s.raiseFault c).seqCell = s.seqCell := rfl
@[simp] theorem State.raiseFault_seqBit (s : State) (c : FaultCode) : (s.raiseFault c).seqBit = s.seqBit := rfl
@[simp] theorem State.raiseFault_seqN (s : State) (c : FaultCode) : (s.raiseFault c).seqN = s.seqN := rfl
@[simp] theorem State.raiseFault_seqM (s : State) (c : FaultCode) : (s.raiseFault c).seqM = s.seqM := rfl
@[simp] theorem State.raiseFault_seqFr (s : State) (c : FaultCode) : (s.raiseFault c).seqFr = s.seqFr := rfl
@[simp] theorem State.raiseFault_host (s : State) (c : FaultCode) : (s.raiseFault c).host = s.host := rfl
@[simp] theorem State.raiseFault_reads (s : State) (c : FaultCode) : (s.raiseFault c).reads = s.reads := rfl

@[simp] theorem State.finish_nCells (s : State) : s.finish.nCells = s.nCells := rfl
@[simp] theorem State.finish_cells (s : State) : s.finish.cells = s.cells := rfl
@[simp] theorem State.finish_fault (s : State) : s.finish.fault = s.fault := rfl
@[simp] theorem State.finish_resp (s : State) : s.finish.resp = s.resp := rfl
@[simp] theorem State.finish_outData (s : State) : s.finish.outData = s.outData := rfl
@[simp] theorem State.finish_outClk (s : State) : s.finish.outClk = s.outClk := rfl
@[simp] theorem State.finish_trace (s : State) : s.finish.trace = s.trace := rfl
@[simp] theorem State.finish_seqCmd (s : State) : s.finish.seqCmd = .none := rfl
@[simp] theorem State.finish_seqPhase (s : State) : s.finish.seqPhase = s.seqPhase := rfl
@[simp] theorem State.finish_seqCnt (s : State) : s.finish.seqCnt = s.seqCnt := rfl
@[simp] theorem State.finish_seqCell (s : State) : s.finish.seqCell = s.seqCell := rfl
@[simp] theorem State.finish_seqBit (s : State) : s.finish.seqBit = s.seqBit := rfl
@[simp] theorem State.finish_seqN (s : State) : s.finish.seqN = s.seqN := rfl
@[simp] theorem State.finish_seqM (s : State) : s.finish.seqM = s.seqM := rfl
@[simp] theorem State.finish_seqFr (s : State) : s.finish.seqFr = s.seqFr := rfl
@[simp] theorem State.finish_host (s : State) : s.finish.host = s.host := rfl
@[simp] theorem State.finish_reads (s : State) : s.finish.reads = s.reads := rfl

@[simp] theorem State.cellWrite_nCells (s : State) (i : Index) (c : CellRec) : (s.cellWrite i c).nCells = s.nCells := rfl
@[simp] theorem State.cellWrite_cells (s : State) (i : Index) (c : CellRec) : (s.cellWrite i c).cells = s.cells.write i.toNat c := rfl
@[simp] theorem State.cellWrite_fault (s : State) (i : Index) (c : CellRec) : (s.cellWrite i c).fault = s.fault := rfl
@[simp] theorem State.cellWrite_resp (s : State) (i : Index) (c : CellRec) : (s.cellWrite i c).resp = s.resp := rfl
@[simp] theorem State.cellWrite_outData (s : State) (i : Index) (c : CellRec) : (s.cellWrite i c).outData = s.outData := rfl
@[simp] theorem State.cellWrite_outClk (s : State) (i : Index) (c : CellRec) : (s.cellWrite i c).outClk = s.outClk := rfl
@[simp] theorem State.cellWrite_trace (s : State) (i : Index) (c : CellRec) : (s.cellWrite i c).trace = s.trace := rfl
@[simp] theorem State.cellWrite_seqCmd (s : State) (i : Index) (c : CellRec) : (s.cellWrite i c).seqCmd = s.seqCmd := rfl
@[simp] theorem State.cellWrite_seqPhase (s : State) (i : Index) (c : CellRec) : (s.cellWrite i c).seqPhase = s.seqPhase := rfl
@[simp] theorem State.cellWrite_seqCnt (s : State) (i : Index) (c : CellRec) : (s.cellWrite i c).seqCnt = s.seqCnt := rfl
@[simp] theorem State.cellWrite_seqCell (s : State) (i : Index) (c : CellRec) : (s.cellWrite i c).seqCell = s.seqCell := rfl
@[simp] theorem State.cellWrite_seqBit (s : State) (i : Index) (c : CellRec) : (s.cellWrite i c).seqBit = s.seqBit := rfl
@[simp] theorem State.cellWrite_seqN (s : State) (i : Index) (c : CellRec) : (s.cellWrite i c).seqN = s.seqN := rfl
@[simp] theorem State.cellWrite_seqM (s : State) (i : Index) (c : CellRec) : (s.cellWrite i c).seqM = s.seqM := rfl
@[simp] theorem State.cellWrite_seqFr (s : State) (i : Index) (c : CellRec) : (s.cellWrite i c).seqFr = s.seqFr := rfl
@[simp] theorem State.cellWrite_host (s : State) (i : Index) (c : CellRec) : (s.cellWrite i c).host = s.host := rfl
@[simp] theorem State.cellWrite_reads (s : State) (i : Index) (c : CellRec) : (s.cellWrite i c).reads = s.reads := rfl

@[simp] theorem State.emit_data_nCells (s : State) (v : Bool) : (s.emit .data v).nCells = s.nCells := rfl
@[simp] theorem State.emit_data_cells (s : State) (v : Bool) : (s.emit .data v).cells = s.cells := rfl
@[simp] theorem State.emit_data_fault (s : State) (v : Bool) : (s.emit .data v).fault = s.fault := rfl
@[simp] theorem State.emit_data_resp (s : State) (v : Bool) : (s.emit .data v).resp = s.resp := rfl
@[simp] theorem State.emit_data_outData (s : State) (v : Bool) : (s.emit .data v).outData = Level.ofBool v := rfl
@[simp] theorem State.emit_data_outClk (s : State) (v : Bool) : (s.emit .data v).outClk = s.outClk := rfl
@[simp] theorem State.emit_data_trace (s : State) (v : Bool) : (s.emit .data v).trace = s.trace ++ [⟨.data, v⟩] := rfl
@[simp] theorem State.emit_data_seqCmd (s : State) (v : Bool) : (s.emit .data v).seqCmd = s.seqCmd := rfl
@[simp] theorem State.emit_data_seqPhase (s : State) (v : Bool) : (s.emit .data v).seqPhase = s.seqPhase := rfl
@[simp] theorem State.emit_data_seqCnt (s : State) (v : Bool) : (s.emit .data v).seqCnt = s.seqCnt := rfl
@[simp] theorem State.emit_data_seqCell (s : State) (v : Bool) : (s.emit .data v).seqCell = s.seqCell := rfl
@[simp] theorem State.emit_data_seqBit (s : State) (v : Bool) : (s.emit .data v).seqBit = s.seqBit := rfl
@[simp] theorem State.emit_data_seqN (s : State) (v : Bool) : (s.emit .data v).seqN = s.seqN := rfl
@[simp] theorem State.emit_data_seqM (s : State) (v : Bool) : (s.emit .data v).seqM = s.seqM := rfl
@[simp] theorem State.emit_data_seqFr (s : State) (v : Bool) : (s.emit .data v).seqFr = s.seqFr := rfl
@[simp] theorem State.emit_data_host (s : State) (v : Bool) : (s.emit .data v).host = s.host := rfl
@[simp] theorem State.emit_data_reads (s : State) (v : Bool) : (s.emit .data v).reads = s.reads := rfl

@[simp] theorem State.emit_clk_nCells (s : State) (v : Bool) : (s.emit .clk v).nCells = s.nCells := rfl
@[simp] theorem State.emit_clk_cells (s : State) (v : Bool) : (s.emit .clk v).cells = s.cells := rfl
@[simp] theorem State.emit_clk_fault (s : State) (v : Bool) : (s.emit .clk v).fault = s.fault := rfl
@[simp] theorem State.emit_clk_resp (s : State) (v : Bool) : (s.emit .clk v).resp = s.resp := rfl
@[simp] theorem State.emit_clk_outData (s : State) (v : Bool) : (s.emit .clk v).outData = s.outData := rfl
@[simp] theorem State.emit_clk_outClk (s : State) (v : Bool) : (s.emit .clk v).outClk = Level.ofBool v := rfl
@[simp] theorem State.emit_clk_trace (s : State) (v : Bool) : (s.emit .clk v).trace = s.trace ++ [⟨.clk, v⟩] := rfl
@[simp] theorem State.emit_clk_seqCmd (s : State) (v : Bool) : (s.emit .clk v).seqCmd = s.seqCmd := rfl
@[simp] theorem State.emit_clk_seqPhase (s : State) (v : Bool) : (s.emit .clk v).seqPhase = s.seqPhase := rfl
@[simp] theorem State.emit_clk_seqCnt (s : State) (v : Bool) : (s.emit .clk v).seqCnt = s.seqCnt := rfl
@[simp] theorem State.emit_clk_seqCell (s : State) (v : Bool) : (s.emit .clk v).seqCell = s.seqCell := rfl
@[simp] theorem State.emit_clk_seqBit (s : State) (v : Bool) : (s.emit .clk v).seqBit = s.seqBit := rfl
@[simp] theorem State.emit_clk_seqN (s : State) (v : Bool) : (s.emit .clk v).seqN = s.seqN := rfl
@[simp] theorem State.emit_clk_seqM (s : State) (v : Bool) : (s.emit .clk v).seqM = s.seqM := rfl
@[simp] theorem State.emit_clk_seqFr (s : State) (v : Bool) : (s.emit .clk v).seqFr = s.seqFr := rfl
@[simp] theorem State.emit_clk_host (s : State) (v : Bool) : (s.emit .clk v).host = s.host := rfl
@[simp] theorem State.emit_clk_reads (s : State) (v : Bool) : (s.emit .clk v).reads = s.reads := rfl

@[simp] theorem State.withHost_nCells (s : State) (m : List HostMove) : (s.withHost m).nCells = s.nCells := rfl
@[simp] theorem State.withHost_cells (s : State) (m : List HostMove) : (s.withHost m).cells = s.cells := rfl
@[simp] theorem State.withHost_fault (s : State) (m : List HostMove) : (s.withHost m).fault = s.fault := rfl
@[simp] theorem State.withHost_resp (s : State) (m : List HostMove) : (s.withHost m).resp = s.resp := rfl
@[simp] theorem State.withHost_outData (s : State) (m : List HostMove) : (s.withHost m).outData = s.outData := rfl
@[simp] theorem State.withHost_outClk (s : State) (m : List HostMove) : (s.withHost m).outClk = s.outClk := rfl
@[simp] theorem State.withHost_trace (s : State) (m : List HostMove) : (s.withHost m).trace = s.trace := rfl
@[simp] theorem State.withHost_seqCmd (s : State) (m : List HostMove) : (s.withHost m).seqCmd = s.seqCmd := rfl
@[simp] theorem State.withHost_seqPhase (s : State) (m : List HostMove) : (s.withHost m).seqPhase = s.seqPhase := rfl
@[simp] theorem State.withHost_seqCnt (s : State) (m : List HostMove) : (s.withHost m).seqCnt = s.seqCnt := rfl
@[simp] theorem State.withHost_seqCell (s : State) (m : List HostMove) : (s.withHost m).seqCell = s.seqCell := rfl
@[simp] theorem State.withHost_seqBit (s : State) (m : List HostMove) : (s.withHost m).seqBit = s.seqBit := rfl
@[simp] theorem State.withHost_seqN (s : State) (m : List HostMove) : (s.withHost m).seqN = s.seqN := rfl
@[simp] theorem State.withHost_seqM (s : State) (m : List HostMove) : (s.withHost m).seqM = s.seqM := rfl
@[simp] theorem State.withHost_seqFr (s : State) (m : List HostMove) : (s.withHost m).seqFr = s.seqFr := rfl
@[simp] theorem State.withHost_host (s : State) (m : List HostMove) : (s.withHost m).host = m := rfl
@[simp] theorem State.withHost_reads (s : State) (m : List HostMove) : (s.withHost m).reads = s.reads := rfl

@[simp] theorem State.launch_nCells (n : Fin 65536) (m : Memory) : (State.launch n m).nCells = n := rfl
@[simp] theorem State.launch_cells (n : Fin 65536) (m : Memory) : (State.launch n m).cells = m := rfl
@[simp] theorem State.launch_fault (n : Fin 65536) (m : Memory) : (State.launch n m).fault = none := rfl
@[simp] theorem State.launch_resp (n : Fin 65536) (m : Memory) : (State.launch n m).resp = 0 := rfl
@[simp] theorem State.launch_outData (n : Fin 65536) (m : Memory) : (State.launch n m).outData = .z := rfl
@[simp] theorem State.launch_outClk (n : Fin 65536) (m : Memory) : (State.launch n m).outClk = .z := rfl
@[simp] theorem State.launch_trace (n : Fin 65536) (m : Memory) : (State.launch n m).trace = [] := rfl
@[simp] theorem State.launch_seqCmd (n : Fin 65536) (m : Memory) : (State.launch n m).seqCmd = .none := rfl
@[simp] theorem State.launch_seqPhase (n : Fin 65536) (m : Memory) : (State.launch n m).seqPhase = .sData := rfl
@[simp] theorem State.launch_seqCnt (n : Fin 65536) (m : Memory) : (State.launch n m).seqCnt = 0 := rfl
@[simp] theorem State.launch_seqCell (n : Fin 65536) (m : Memory) : (State.launch n m).seqCell = 0 := rfl
@[simp] theorem State.launch_seqBit (n : Fin 65536) (m : Memory) : (State.launch n m).seqBit = 0 := rfl
@[simp] theorem State.launch_seqN (n : Fin 65536) (m : Memory) : (State.launch n m).seqN = 0 := rfl
@[simp] theorem State.launch_seqM (n : Fin 65536) (m : Memory) : (State.launch n m).seqM = 0 := rfl
@[simp] theorem State.launch_seqFr (n : Fin 65536) (m : Memory) : (State.launch n m).seqFr = 0 := rfl
@[simp] theorem State.launch_host (n : Fin 65536) (m : Memory) : (State.launch n m).host = [] := rfl
@[simp] theorem State.launch_reads (n : Fin 65536) (m : Memory) : (State.launch n m).reads = [] := rfl

@[simp] theorem State.raiseFault_busy (s : State) (c : FaultCode) : (s.raiseFault c).busy = s.busy := rfl
@[simp] theorem State.finish_faulted (s : State) : s.finish.faulted = s.faulted := rfl
@[simp] theorem State.cellWrite_busy (s : State) (i : Index) (c : CellRec) : (s.cellWrite i c).busy = s.busy := rfl
@[simp] theorem State.cellWrite_faulted (s : State) (i : Index) (c : CellRec) : (s.cellWrite i c).faulted = s.faulted := rfl
@[simp] theorem State.emit_data_busy (s : State) (v : Bool) : (s.emit .data v).busy = s.busy := rfl
@[simp] theorem State.emit_data_faulted (s : State) (v : Bool) : (s.emit .data v).faulted = s.faulted := rfl
@[simp] theorem State.emit_clk_busy (s : State) (v : Bool) : (s.emit .clk v).busy = s.busy := rfl
@[simp] theorem State.emit_clk_faulted (s : State) (v : Bool) : (s.emit .clk v).faulted = s.faulted := rfl

@[simp] theorem State.finish_busy (s : State) : s.finish.busy = false := rfl
@[simp] theorem State.raiseFault_faulted (s : State) (c : FaultCode) : (s.raiseFault c).faulted = true := rfl

theorem State.busy_eq_false_iff (s : State) : s.busy = false ↔ s.seqCmd = .none := by
  simp [State.busy]

theorem State.busy_eq_true_iff (s : State) : s.busy = true ↔ s.seqCmd ≠ .none := by
  simp [State.busy]

theorem State.faulted_eq_false_iff (s : State) : s.faulted = false ↔ s.fault = none := by
  simp [State.faulted]

theorem State.faulted_eq_true_iff (s : State) : s.faulted = true ↔ s.fault ≠ none := by
  simp [State.faulted, Option.isSome_iff_ne_none]

/-- STATUS.BUSY is bit 0 of STATUS (R23). -/
theorem State.status_busy (s : State) : s.status.getLsbD 0 = s.busy := by
  unfold State.status
  rw [BitVec.getLsbD_append]
  simp

/-- STATUS.FAULTED is bit 1 of STATUS (R23). -/
theorem State.status_faulted (s : State) : s.status.getLsbD 1 = s.faulted := by
  unfold State.status
  rw [BitVec.getLsbD_append, BitVec.getLsbD_append]
  simp

/-- BUSY looks at SEQ_CMD alone. -/
theorem State.busy_congr (s t : State) (h : t.seqCmd = s.seqCmd) : t.busy = s.busy := by
  simp [State.busy, h]

@[simp] theorem CellRec.withFrame_red (c : CellRec) (f : Frame) : (c.withFrame f).red = c.red := rfl
@[simp] theorem CellRec.withFrame_green (c : CellRec) (f : Frame) : (c.withFrame f).green = c.green := rfl
@[simp] theorem CellRec.withFrame_blue (c : CellRec) (f : Frame) : (c.withFrame f).blue = c.blue := rfl
@[simp] theorem CellRec.withFrame_frame (c : CellRec) (f : Frame) : (c.withFrame f).frame = f := rfl
@[simp] theorem CellRec.withFrame_encoded (c : CellRec) (f : Frame) : (c.withFrame f).encoded = c.encoded := rfl
@[simp] theorem CellRec.reencoded_frame (c : CellRec) : c.reencoded.frame = c.encoded := rfl
@[simp] theorem CellRec.reencoded_encoded (c : CellRec) : c.reencoded.encoded = c.encoded := rfl
@[simp] theorem CellRec.reencoded_reencoded (c : CellRec) : c.reencoded.reencoded = c.reencoded := rfl

end Sys2Proof.Machine
end

