-- ==== Sys2Proof/Laws/Encoding.lean ====
section
/-! SUPPORT. The laws of the command word: each encoding as a number (the words of R84), and each field as a number. -/

namespace Sys2Proof

theorem toNat_append_eq {n m : Nat} (x : BitVec n) (y : BitVec m) :
    (x ++ y).toNat = x.toNat * 2 ^ m + y.toNat := by
  rw [BitVec.toNat_append, ← Nat.shiftLeft_add_eq_or_of_lt y.isLt, Nat.shiftLeft_eq]

theorem bitField_toNat (w : CmdWord) (lo n : Nat) : (bitField w lo n).toNat = w.toNat / 2 ^ lo % 2 ^ n := by
  simp [bitField, Nat.shiftRight_eq_div_pow]

theorem idxWord_toNat (op : BitVec 4) (idx : Index) :
    (idxWord op idx).toNat = op.toNat * 2 ^ 60 + idx.toNat * 2 ^ 32 := by
  change BitVec.toNat (w := 4 + 12 + 16 + 32) (op ++ (0 : BitVec 12) ++ idx ++ (0 : BitVec 32)) = _
  simp only [toNat_append_eq]
  simp
  omega

/-- The word of SETC as the number R84 gives. -/
theorem encode_setc_toNat (idx : Index) (r g b : Channel) :
    (encode (.setc idx r g b)).toNat =
      1 * 2 ^ 60 + idx.toNat * 2 ^ 32 + r.toNat * 2 ^ 16 + g.toNat * 2 ^ 8 + b.toNat := by
  change BitVec.toNat (w := 4 + 12 + 16 + 8 + 8 + 8 + 8)
    (0x1#4 ++ (0 : BitVec 12) ++ idx ++ (0 : BitVec 8) ++ r ++ g ++ b) = _
  simp only [toNat_append_eq]
  simp
  omega

/-- The word of ENCRAW as the number R84 gives. -/
theorem encode_encraw_toNat (idx : Index) (code : BitVec 16) :
    (encode (.encraw idx code)).toNat = 3 * 2 ^ 60 + idx.toNat * 2 ^ 32 + code.toNat := by
  change BitVec.toNat (w := 4 + 12 + 16 + 16 + 16)
    (0x3#4 ++ (0 : BitVec 12) ++ idx ++ (0 : BitVec 16) ++ code) = _
  simp only [toNat_append_eq]
  simp
  omega

theorem encode_start_toNat : (encode .start).toNat = 5 * 2 ^ 60 := by decide

end Sys2Proof
end

