-- ==== Sys2Proof/Laws/Memory.lean ====
section
/-! SUPPORT. The laws of cell memory: a read after a write, the canonical form, the range, the flag bit, and the check
that the first cells are created. -/

namespace Sys2Proof.Machine

@[simp] theorem Memory.read_nil (i : Nat) : Memory.read [] i = none := rfl

theorem Memory.read_cons (j : Nat) (c : CellRec) (m : Memory) (i : Nat) :
    Memory.read ((j, c) :: m) i = if i = j then some c else Memory.read m i := rfl

/-- CellRead returns the latest CellWrite to the slot (R61). -/
@[simp] theorem Memory.read_write_same (m : Memory) (i : Nat) (c : CellRec) : (m.write i c).read i = some c := by
  induction m with
  | nil => simp [Memory.write, Memory.read_cons]
  | cons p m ih =>
    obtain ⟨j, d⟩ := p
    unfold Memory.write
    split
    · simp [Memory.read_cons]
    · split
      · simp [Memory.read_cons]
      · simp [Memory.read_cons, *]

/-- CellWrite has no effect beyond the record written (R57). -/
theorem Memory.read_write_other (m : Memory) {i k : Nat} (c : CellRec) (h : k ≠ i) :
    (m.write i c).read k = m.read k := by
  induction m with
  | nil => simp [Memory.write, Memory.read_cons, h]
  | cons p m ih =>
    obtain ⟨j, d⟩ := p
    unfold Memory.write
    split
    · simp [Memory.read_cons, h]
    · split
      · subst_vars
        simp [Memory.read_cons, h]
      · simp [Memory.read_cons, ih]

theorem Memory.read_write (m : Memory) (i k : Nat) (c : CellRec) :
    (m.write i c).read k = if k = i then some c else m.read k := by
  split
  · subst_vars; simp
  · exact Memory.read_write_other m c ‹_›

/-- Writing the same record twice is writing it once. -/
@[simp] theorem Memory.write_write (m : Memory) (i : Nat) (c d : CellRec) :
    (m.write i c).write i d = m.write i d := by
  induction m with
  | nil => simp [Memory.write]
  | cons p m ih =>
    obtain ⟨j, e⟩ := p
    by_cases h1 : i < j
    · simp [Memory.write, h1]
    · by_cases h2 : i = j
      · simp [Memory.write, h2]
      · simp [Memory.write, h1, h2, ih]

theorem Memory.risingFrom_mono {lo lo' : Nat} (h : lo' ≤ lo) (m : Memory)
    (hm : m.risingFrom lo = true) : m.risingFrom lo' = true := by
  cases m with
  | nil => rfl
  | cons p m =>
    obtain ⟨j, d⟩ := p
    simp [Memory.risingFrom] at hm ⊢
    exact ⟨by omega, hm.2⟩

theorem Memory.risingFrom_write {lo : Nat} (m : Memory) {i : Nat} (c : CellRec)
    (hi : lo ≤ i) (hm : m.risingFrom lo = true) : (m.write i c).risingFrom lo = true := by
  induction m generalizing lo with
  | nil => simp [Memory.write, Memory.risingFrom, hi]
  | cons p m ih =>
    obtain ⟨j, d⟩ := p
    simp [Memory.risingFrom] at hm
    unfold Memory.write
    split
    · simp [Memory.risingFrom, hi, hm.2]; omega
    · split
      · subst_vars; simp [Memory.risingFrom, hm]
      · simp [Memory.risingFrom, hm.1]
        exact ih (by omega) hm.2

/-- CellWrite keeps the canonical form. -/
theorem Memory.wf_write (m : Memory) (i : Nat) (c : CellRec) (hm : m.wf = true) : (m.write i c).wf = true :=
  Memory.risingFrom_write m c (Nat.zero_le i) hm

theorem Memory.read_of_rising {lo : Nat} (m : Memory) (hm : m.risingFrom lo = true) {k : Nat} (hk : k < lo) :
    m.read k = none := by
  induction m generalizing lo with
  | nil => rfl
  | cons p m ih =>
    obtain ⟨j, d⟩ := p
    simp [Memory.risingFrom] at hm
    have : k ≠ j := by omega
    simp [Memory.read_cons, this]
    exact ih hm.2 (by omega)

theorem Memory.mem_of_read {m : Memory} {i : Nat} {c : CellRec} (h : m.read i = some c) : (i, c) ∈ m := by
  induction m with
  | nil => simp at h
  | cons p m ih =>
    obtain ⟨j, d⟩ := p
    simp only [Memory.read_cons] at h
    split at h
    · simp_all
    · exact List.mem_cons_of_mem _ (ih h)

theorem Memory.mem_write {m : Memory} {i : Nat} {c : CellRec} {p : Nat × CellRec}
    (h : p ∈ m.write i c) : p = (i, c) ∨ p ∈ m := by
  induction m with
  | nil => simpa [Memory.write] using h
  | cons q m ih =>
    obtain ⟨j, d⟩ := q
    unfold Memory.write at h
    split at h
    · simpa using h
    · split at h
      · rcases List.mem_cons.1 h with h | h
        · exact .inl h
        · exact .inr (List.mem_cons_of_mem _ h)
      · rcases List.mem_cons.1 h with h | h
        · exact .inr (h ▸ List.mem_cons_self)
        · exact (ih h).imp_right (List.mem_cons_of_mem _)

theorem Memory.lt_of_read {m : Memory} {n i : Nat} {c : CellRec} (hm : m.inRange n = true)
    (h : m.read i = some c) : i < n := by
  simp only [Memory.inRange, List.all_eq_true, decide_eq_true_eq] at hm
  exact hm _ (Memory.mem_of_read h)

theorem Memory.flag_of_read {m : Memory} {i : Nat} {c : CellRec} (hm : m.flagged = true)
    (h : m.read i = some c) : c.frame.getLsbD 15 = true := by
  simp only [Memory.flagged, List.all_eq_true] at hm
  exact hm (i, c) (Memory.mem_of_read h)

/-- A write to a slot that is there keeps every created slot one that is there. -/
theorem Memory.inRange_write {m : Memory} {n i : Nat} (c : CellRec) (hi : i < n) (hm : m.inRange n = true) :
    (m.write i c).inRange n = true := by
  simp only [Memory.inRange, List.all_eq_true, decide_eq_true_eq] at hm ⊢
  intro p hp
  rcases Memory.mem_write hp with rfl | hp
  · exact hi
  · exact hm p hp

/-- A write of a record with `frame[15] = 1` keeps the flag bit of every cell (R31). -/
theorem Memory.flagged_write {m : Memory} {i : Nat} {c : CellRec} (hc : c.frame.getLsbD 15 = true)
    (hm : m.flagged = true) : (m.write i c).flagged = true := by
  simp only [Memory.flagged, List.all_eq_true] at hm ⊢
  intro p hp
  rcases Memory.mem_write hp with rfl | hp
  · exact hc
  · exact hm p hp

/-- The check REFRESH makes is that each of the slots is created (R135). -/
theorem Memory.createdFrom_iff (m : Memory) (k count : Nat) :
    m.createdFrom k count = true ↔ ∀ j, k ≤ j → j < k + count → (m.read j).isSome = true := by
  induction count generalizing k with
  | zero => simp [Memory.createdFrom]; omega
  | succ count ih =>
    simp only [Memory.createdFrom, Bool.and_eq_true, ih]
    constructor
    · rintro ⟨h0, h⟩ j hj hj'
      by_cases hk : j = k
      · exact hk ▸ h0
      · exact h j (by omega) (by omega)
    · intro h
      exact ⟨h k (Nat.le_refl k) (by omega), fun j hj hj' => h j (by omega) (by omega)⟩

/-- No write makes a created slot UNCREATED (R30). -/
theorem Memory.createdFrom_write (m : Memory) (i : Nat) (c : CellRec) {k count : Nat}
    (h : m.createdFrom k count = true) : (m.write i c).createdFrom k count = true := by
  rw [Memory.createdFrom_iff] at h ⊢
  intro j hj hj'
  rw [Memory.read_write]
  split
  · rfl
  · exact h j hj hj'

end Sys2Proof.Machine
end

