-- ==== Sys2Proof/Laws/Operands.lean ====
section
/-! SUPPORT. The laws of the pure functions: ENCODE and RAWENCODE bit by bit and as numbers. -/

namespace Sys2Proof.Machine

/-- ENCODE bit by bit: green at 4..0, red at 9..5, blue at 14..10, the flag at 15 (R70). -/
theorem encodeFrame_getLsbD (r g b : Channel) (i : Nat) :
    (encodeFrame r g b).getLsbD i =
      if i < 5 then g.getLsbD i
      else if i < 10 then r.getLsbD (i - 5)
      else if i < 15 then b.getLsbD (i - 10)
      else decide (i = 15) := by
  change BitVec.getLsbD (w := 1 + 5 + 5 + 5)
    (1#1 ++ b.extractLsb' 0 5 ++ r.extractLsb' 0 5 ++ g.extractLsb' 0 5) i = _
  simp only [BitVec.getLsbD_append, BitVec.getLsbD_extractLsb', Nat.zero_add]
  by_cases h1 : i < 5
  · simp [h1]
  · by_cases h2 : i < 10
    · have : i - 5 < 5 := by omega
      simp [h1, h2, this]
    · by_cases h3 : i < 15
      · have h4 : ¬ i - 5 < 5 := by omega
        have h5 : i - 10 < 5 := by omega
        have h6 : i - 5 - 5 = i - 10 := by omega
        simp [h1, h2, h3, h4, h5, h6]
      · have h4 : ¬ i - 5 < 5 := by omega
        have h5 : ¬ i - 10 < 5 := by omega
        have h7 : i - 5 - 5 = i - 10 := by omega
        have h6 : (i - 10 - 5 = 0) = (i = 15) := by
          apply propext; omega
        simp [h1, h2, h3, h4, h5, h6, h7, BitVec.getLsbD_one]

/-- RAWENCODE bit by bit (R102). -/
theorem rawEncode_getLsbD (code : BitVec 16) (i : Nat) :
    (rawEncode code).getLsbD i = if i < 15 then code.getLsbD i else decide (i = 15) := by
  change BitVec.getLsbD (w := 1 + 15) (1#1 ++ code.extractLsb' 0 15) i = _
  simp only [BitVec.getLsbD_append, BitVec.getLsbD_extractLsb', Nat.zero_add]
  by_cases h1 : i < 15
  · simp [h1]
  · have h6 : (i - 15 = 0) = (i = 15) := by
      apply propext; omega
    simp [h1, h6, BitVec.getLsbD_one]

/-- ENCODE always sets the flag bit (R100). -/
theorem encodeFrame_flag (r g b : Channel) : (encodeFrame r g b).getLsbD 15 = true :=
  encodeFrame_getLsbD r g b 15

/-- RAWENCODE always sets the flag bit (R102). -/
theorem rawEncode_flag (code : BitVec 16) : (rawEncode code).getLsbD 15 = true :=
  rawEncode_getLsbD code 15

theorem CellRec.encoded_flag (c : CellRec) : c.encoded.getLsbD 15 = true := encodeFrame_flag _ _ _

end Sys2Proof.Machine
end

