-- ==== Sys2Proof/Laws/Ops.lean ====
section
/-! SUPPORT. What each shared operation of command acceptance can do, said once. -/

namespace Sys2Proof.Machine

@[simp] theorem raise_eq (c : FaultCode) (s : State) : raise c s = .next (s.raiseFault c) := rfl

/-- On a block that is idle and not faulted the acceptance part runs (R130). -/
theorem accept_idle {s : State} (hf : s.fault = none) (hi : s.seqCmd = .none) (body : State → Outcome) :
    accept s body = body s := by
  simp [accept, State.faulted, State.busy, hf, hi]

/-- A faulted block takes nothing (R130, R186). -/
theorem accept_faulted {s : State} (hf : s.fault ≠ none) (body : State → Outcome) :
    accept s body = .next s := by
  simp [accept, (State.faulted_eq_true_iff s).2 hf]

/-- A busy block raises BUSY_COMMAND, whatever the command (R184). -/
theorem accept_busy {s : State} (hf : s.fault = none) (hb : s.seqCmd ≠ .none) (body : State → Outcome) :
    accept s body = .next (s.raiseFault .busyCommand) := by
  simp [accept, State.faulted, hf, (State.busy_eq_true_iff s).2 hb]

/-- Everything `accept` can answer. -/
theorem accept_cases {s : State} {body : State → Outcome} {o : Outcome} (h : accept s body = o) :
    (s.fault ≠ none ∧ o = .next s) ∨
    (s.fault = none ∧ s.seqCmd ≠ .none ∧ o = .next (s.raiseFault .busyCommand)) ∨
    (s.fault = none ∧ s.seqCmd = .none ∧ o = body s) := by
  subst h
  by_cases hf : s.fault = none
  · by_cases hi : s.seqCmd = .none
    · exact .inr (.inr ⟨hf, hi, accept_idle hf hi body⟩)
    · exact .inr (.inl ⟨hf, hi, accept_busy hf hi body⟩)
  · exact .inl ⟨hf, accept_faulted hf body⟩

theorem withIndex_in {idx : Index} {s : State} (h : idx.toNat < s.nCells.val) (body : State → Outcome) :
    withIndex idx s body = body s := by
  simp [withIndex, h]

theorem withIndex_out {idx : Index} {s : State} (h : s.nCells.val ≤ idx.toNat) (body : State → Outcome) :
    withIndex idx s body = .next (s.raiseFault .indexRange) := by
  have : ¬ idx.toNat < s.nCells.val := by omega
  simp [withIndex, this]

theorem withCell_in {idx : Index} {s : State} {c : CellRec} (h : idx.toNat < s.nCells.val)
    (hc : s.cellRead idx = some c) (body : CellRec → State → Outcome) :
    withCell idx s body = body c s := by
  simp [withCell, withIndex_in h, hc]

theorem withCell_out {idx : Index} {s : State} (h : s.nCells.val ≤ idx.toNat) (body : CellRec → State → Outcome) :
    withCell idx s body = .next (s.raiseFault .indexRange) := withIndex_out h _

theorem withCell_uncreated {idx : Index} {s : State} (h : idx.toNat < s.nCells.val)
    (hc : s.cellRead idx = none) (body : CellRec → State → Outcome) :
    withCell idx s body = .next (s.raiseFault .uncreatedCell) := by
  simp [withCell, withIndex_in h, hc]

/-- Everything `withCell` can answer. -/
theorem withCell_cases {idx : Index} {s : State} {body : CellRec → State → Outcome} {o : Outcome}
    (h : withCell idx s body = o) :
    (∃ code, (code = .indexRange ∨ code = .uncreatedCell) ∧ o = .next (s.raiseFault code)) ∨
    (∃ c, idx.toNat < s.nCells.val ∧ s.cellRead idx = some c ∧ o = body c s) := by
  subst h
  by_cases hi : idx.toNat < s.nCells.val
  · cases hc : s.cellRead idx with
    | none => exact .inl ⟨_, .inr rfl, withCell_uncreated hi hc body⟩
    | some c => exact .inr ⟨c, hi, rfl, withCell_in hi hc body⟩
  · exact .inl ⟨_, .inl rfl, withCell_out (by omega) body⟩

/-- The effect a command has when it is accepted with no fault: from `s` to `t` (the rule of each command). -/
def AcceptedAs (i : Instr) (s t : State) : Prop :=
  match i with
  | .setc idx r g b => idx.toNat < s.nCells.val ∧ t = s.cellWrite idx ⟨r, g, b, encodeFrame r g b⟩
  | .enc idx => ∃ c, idx.toNat < s.nCells.val ∧ s.cellRead idx = some c ∧ t = s.cellWrite idx c.reencoded
  | .encraw idx code =>
    ∃ c, idx.toNat < s.nCells.val ∧ s.cellRead idx = some c ∧ t = s.cellWrite idx (c.withFrame (rawEncode code))
  | .rdcell idx =>
    ∃ c, idx.toNat < s.nCells.val ∧ s.cellRead idx = some c ∧ t = { s with resp := c.respWord }
  | .start => t = { s with seqCmd := .start, seqPhase := .sData }
  | .frame idx =>
    ∃ c, idx.toNat < s.nCells.val ∧ s.cellRead idx = some c ∧
      t = { s with seqCmd := .frame, seqCell := idx, seqFr := c.frame, seqBit := 15, seqPhase := .fData }
  | .endTrain m => t = { s with seqCmd := .endTrain, seqM := m, seqPhase := .eData }
  | .refresh n =>
    n.toNat ≤ s.nCells.val ∧ s.cells.createdFrom 0 n.toNat = true ∧
      t = { s with seqCmd := .refresh, seqN := n, seqM := n, seqPhase := .sData }

/-- Every command's issue makes the checks of R130 first. -/
theorem exec_eq_accept (i : Instr) (s : State) : ∃ body, exec i s = accept s body := by
  cases i <;>
    simp only [exec, execSetc, execEnc, execEncraw, execRdcell, execStart, execFrame, execEndTrain, execRefresh] <;>
    exact ⟨_, rfl⟩

/-- Everything `exec` can answer: a faulted block takes nothing; else a fault is raised; else the block was idle and the
command is accepted. `exec` never stops the model. -/
theorem exec_cases (i : Instr) (s : State) :
    (s.fault ≠ none ∧ exec i s = .next s) ∨
    (s.fault = none ∧ ∃ code, code ≠ .illegalCommand ∧ (code = .busyCommand ↔ s.seqCmd ≠ .none) ∧
      exec i s = .next (s.raiseFault code)) ∨
    (s.fault = none ∧ s.seqCmd = .none ∧ ∃ t, AcceptedAs i s t ∧ exec i s = .next t) := by
  by_cases hf : s.fault = none
  · refine .inr ?_
    by_cases hi : s.seqCmd = .none
    · have raised {code : FaultCode} (hc : code = .indexRange ∨ code = .uncreatedCell) :
          code ≠ .illegalCommand ∧ (code = .busyCommand ↔ s.seqCmd ≠ .none) := by
        rcases hc with rfl | rfl <;> simp [hi]
      cases i with
      | setc idx r g b =>
        simp only [exec, execSetc, accept_idle hf hi]
        by_cases h : idx.toNat < s.nCells.val
        · exact .inr ⟨hf, hi, _, ⟨h, rfl⟩, withIndex_in h _⟩
        · exact .inl ⟨hf, _, (raised (.inl rfl)).1, (raised (.inl rfl)).2, withIndex_out (by omega) _⟩
      | enc idx =>
        simp only [exec, execEnc, accept_idle hf hi]
        rcases withCell_cases (idx := idx) (s := s) rfl with ⟨code, hc, h⟩ | ⟨c, h1, h2, h⟩
        · exact .inl ⟨hf, code, (raised hc).1, (raised hc).2, h⟩
        · exact .inr ⟨hf, hi, _, ⟨c, h1, h2, rfl⟩, h⟩
      | encraw idx code =>
        simp only [exec, execEncraw, accept_idle hf hi]
        rcases withCell_cases (idx := idx) (s := s) rfl with ⟨code, hc, h⟩ | ⟨c, h1, h2, h⟩
        · exact .inl ⟨hf, code, (raised hc).1, (raised hc).2, h⟩
        · exact .inr ⟨hf, hi, _, ⟨c, h1, h2, rfl⟩, h⟩
      | rdcell idx =>
        simp only [exec, execRdcell, accept_idle hf hi]
        rcases withCell_cases (idx := idx) (s := s) rfl with ⟨code, hc, h⟩ | ⟨c, h1, h2, h⟩
        · exact .inl ⟨hf, code, (raised hc).1, (raised hc).2, h⟩
        · exact .inr ⟨hf, hi, _, ⟨c, h1, h2, rfl⟩, h⟩
      | start =>
        simp only [exec, execStart, accept_idle hf hi]
        exact .inr ⟨hf, hi, _, rfl, rfl⟩
      | frame idx =>
        simp only [exec, execFrame, accept_idle hf hi]
        rcases withCell_cases (idx := idx) (s := s) rfl with ⟨code, hc, h⟩ | ⟨c, h1, h2, h⟩
        · exact .inl ⟨hf, code, (raised hc).1, (raised hc).2, h⟩
        · exact .inr ⟨hf, hi, _, ⟨c, h1, h2, rfl⟩, h⟩
      | endTrain m =>
        simp only [exec, execEndTrain, accept_idle hf hi]
        exact .inr ⟨hf, hi, _, rfl, rfl⟩
      | refresh n =>
        simp only [exec, execRefresh, accept_idle hf hi]
        by_cases h : s.nCells.val < n.toNat
        · exact .inl ⟨hf, .indexRange, (raised (.inl rfl)).1, (raised (.inl rfl)).2, by simp [h]⟩
        · by_cases hc : s.cells.createdFrom 0 n.toNat = true
          · exact .inr ⟨hf, hi, _, ⟨by omega, hc, rfl⟩, by simp [h, hc]⟩
          · exact .inl ⟨hf, .uncreatedCell, (raised (.inr rfl)).1, (raised (.inr rfl)).2, by simp [h, hc]⟩
    · refine .inl ⟨hf, .busyCommand, by simp, by simp [hi], ?_⟩
      obtain ⟨body, h⟩ := exec_eq_accept i s
      rw [h, accept_busy hf hi]
  · refine .inl ⟨hf, ?_⟩
    obtain ⟨body, h⟩ := exec_eq_accept i s
    rw [h, accept_faulted hf]

/-- An ILLEGAL word is no command: the checks are made in the order of R187. -/
theorem issue_illegal {w : CmdWord} {why : IllegalWord} (h : decode w = .illegal why) (s : State) :
    issue w s = accept s (raise .illegalCommand) := by
  simp [issue, h]

/-- A word that decodes is its command's issue (R130). -/
theorem issue_cmd {w : CmdWord} {i : Instr} (h : decode w = .cmd i) (s : State) : issue w s = exec i s := by
  simp [issue, h]

/-- Everything `issue` can answer. -/
theorem issue_cases (w : CmdWord) (s : State) :
    (s.fault ≠ none ∧ issue w s = .next s) ∨
    (s.fault = none ∧ ∃ code, (code = .busyCommand ↔ s.seqCmd ≠ .none) ∧ issue w s = .next (s.raiseFault code)) ∨
    (s.fault = none ∧ s.seqCmd = .none ∧ ∃ i t, decode w = .cmd i ∧ AcceptedAs i s t ∧ issue w s = .next t) := by
  cases hd : decode w with
  | cmd i =>
    rw [issue_cmd hd]
    rcases exec_cases i s with h | ⟨hf, code, _, hb, h⟩ | ⟨hf, hi, t, ha, h⟩
    · exact .inl h
    · exact .inr (.inl ⟨hf, code, hb, h⟩)
    · exact .inr (.inr ⟨hf, hi, i, t, rfl, ha, h⟩)
  | illegal why =>
    rw [issue_illegal hd]
    rcases accept_cases (s := s) (body := raise .illegalCommand) rfl with ⟨hf, h⟩ | ⟨hf, hb, h⟩ | ⟨hf, hi, h⟩
    · exact .inl ⟨hf, h⟩
    · exact .inr (.inl ⟨hf, _, by simp [hb], h⟩)
    · exact .inr (.inl ⟨hf, .illegalCommand, by simp [hi], h⟩)

end Sys2Proof.Machine
end

