-- ==== Sys2Proof/Laws/PerInstr.lean ====
section
/-! SUPPORT. What holds of every command as syntax: its word is one of its own row of the opcode table. -/

namespace Sys2Proof

/-- AND of two concatenations whose parts have the same widths. -/
theorem append_and_append {a b : Nat} (x u : BitVec a) (y v : BitVec b) :
    (x ++ y) &&& (u ++ v) = (x &&& u) ++ (y &&& v) := by
  ext i hi
  simp [BitVec.getElem_append]

/-- A word that uses no field but IDX keeps only its OP under the mask of its row. -/
theorem idxWord_masked (op : BitVec 4) (idx : Index) : idxWord op idx &&& 0xFFFF0000FFFFFFFF = idxWord op 0 := by
  have hm : (0xFFFF0000FFFFFFFF : CmdWord) =
      (0xF#4 ++ 0xFFF#12 ++ 0x0#16 ++ 0xFFFFFFFF#32 : BitVec (4 + 12 + 16 + 32)) := by decide
  rw [hm]
  show ((op ++ (0 : BitVec 12) ++ idx ++ (0 : BitVec 32) : BitVec (4 + 12 + 16 + 32)) &&& _) = _
  rw [append_and_append, append_and_append, append_and_append]
  have h4 : op &&& 0xF#4 = op := BitVec.and_allOnes
  have h16 : idx &&& 0x0#16 = 0#16 := BitVec.and_zero
  rw [h4, h16]
  rfl

theorem OpcodeRow.holds_of_masked {row : OpcodeRow} {w : CmdWord} (h : w &&& row.mask = row.pattern) :
    row.holds w = true := by
  simp [OpcodeRow.holds, h]

end Sys2Proof

/-- The command's word is one of its own row of the opcode table (R78). -/
def Sys2Proof.Laws.EncodeRow.Statement (i : Sys2Proof.Instr) : Prop :=
  (Sys2Proof.opcodeRow i).holds (Sys2Proof.encode i) = true

namespace Sys2Proof.Laws.EncodeRow

theorem setc (idx : Index) (r g b : Channel) : Statement (.setc idx r g b) := by
  have hm : (0xFFFF0000FF000000 : CmdWord) =
      (0xF#4 ++ 0xFFF#12 ++ 0x0#16 ++ 0xFF#8 ++ 0x0#8 ++ 0x0#8 ++ 0x0#8 : BitVec (4 + 12 + 16 + 8 + 8 + 8 + 8)) := by
    decide
  have he : encode (.setc idx r g b) &&& 0xFFFF0000FF000000 = 0x1000000000000000 := by
    rw [hm]
    show ((0x1#4 ++ (0 : BitVec 12) ++ idx ++ (0 : BitVec 8) ++ r ++ g ++ b : BitVec (4 + 12 + 16 + 8 + 8 + 8 + 8)) &&& _) = _
    rw [append_and_append, append_and_append, append_and_append, append_and_append, append_and_append,
      append_and_append]
    have h16 : idx &&& 0x0#16 = 0#16 := BitVec.and_zero
    have h8 (x : Channel) : x &&& 0x0#8 = 0#8 := BitVec.and_zero
    rw [h16, h8, h8, h8]
    rfl
  exact OpcodeRow.holds_of_masked he

theorem encraw (idx : Index) (code : BitVec 16) : Statement (.encraw idx code) := by
  have hm : (0xFFFF0000FFFF0000 : CmdWord) =
      (0xF#4 ++ 0xFFF#12 ++ 0x0#16 ++ 0xFFFF#16 ++ 0x0#16 : BitVec (4 + 12 + 16 + 16 + 16)) := by decide
  have he : encode (.encraw idx code) &&& 0xFFFF0000FFFF0000 = 0x3000000000000000 := by
    rw [hm]
    show ((0x3#4 ++ (0 : BitVec 12) ++ idx ++ (0 : BitVec 16) ++ code : BitVec (4 + 12 + 16 + 16 + 16)) &&& _) = _
    rw [append_and_append, append_and_append, append_and_append, append_and_append]
    have h16 (x : BitVec 16) : x &&& 0x0#16 = 0#16 := BitVec.and_zero
    rw [h16, h16]
    rfl
  exact OpcodeRow.holds_of_masked he

theorem enc (idx : Index) : Statement (.enc idx) :=
  OpcodeRow.holds_of_masked ((idxWord_masked _ _).trans rfl)

theorem rdcell (idx : Index) : Statement (.rdcell idx) :=
  OpcodeRow.holds_of_masked ((idxWord_masked _ _).trans rfl)

theorem start : Statement .start := by
  unfold Statement
  decide

theorem frame (idx : Index) : Statement (.frame idx) :=
  OpcodeRow.holds_of_masked ((idxWord_masked _ _).trans rfl)

theorem endTrain (m : Index) : Statement (.endTrain m) :=
  OpcodeRow.holds_of_masked ((idxWord_masked _ _).trans rfl)

theorem refresh (n : Index) : Statement (.refresh n) :=
  OpcodeRow.holds_of_masked ((idxWord_masked _ _).trans rfl)

end Sys2Proof.Laws.EncodeRow
end

