-- ==== Sys2Proof/Laws/Seq.lean ====
section
/-! SUPPORT. What a step of the sequencer and a step of the machine can do, said once. -/

namespace Sys2Proof.Machine

/-- The one event a sequencer step emits (R141 to R149). In phase F_DATA it depends on the frame that is sent. -/
def phaseEvent (s : State) (sent : Frame) : Event :=
  match s.seqPhase with
  | .sData | .eData => ⟨.data, false⟩
  | .fData => ⟨.data, sent.getLsbD s.seqBit.toNat⟩
  | .sHi | .fHi | .eHi => ⟨.clk, true⟩
  | .sLo | .fLo | .eLo => ⟨.clk, false⟩

/-- Phase F_DATA encodes the cell first (R144). -/
abbrev encodesNow (s : State) : Prop := s.seqPhase = .fData ∧ s.seqCmd = .refresh ∧ s.seqBit = 15

/-- A REFRESH's cell in phase F_DATA for bit 15 is encoded and its bit driven. -/
theorem phaseFData_encode {s : State} {c : CellRec} (hr : s.seqCmd = .refresh) (hb : s.seqBit = 15)
    (hc : s.cellRead s.seqCell = some c) : phaseFData s = .next (driveBit (encodeCurrent c s)) := by
  simp [phaseFData, hr, hb, hc]

theorem phaseFData_plain {s : State} (h : ¬ (s.seqCmd = .refresh ∧ s.seqBit = 15)) :
    phaseFData s = .next (driveBit s) := by
  unfold phaseFData
  rw [if_neg h]

/-- Everything a sequencer step can answer: it emits one event and leaves alone what no phase writes; or it is the
F_DATA step of a REFRESH whose cell is UNCREATED. -/
theorem seqStep_cases (s : State) :
    (encodesNow s ∧ s.cellRead s.seqCell = none ∧ seqStep s = .fault .refreshReadsUncreated) ∨
    (∃ t, seqStep s = .next t ∧ t.nCells = s.nCells ∧ t.fault = s.fault ∧ t.resp = s.resp ∧ t.host = s.host ∧
      t.reads = s.reads ∧ t.seqN = s.seqN ∧ t.seqM = s.seqM ∧
      (t.seqCmd = s.seqCmd ∨ t.seqCmd = .none) ∧
      t.trace = s.trace ++ [phaseEvent s t.seqFr] ∧
      ((¬ encodesNow s ∧ t.cells = s.cells ∧ t.seqFr = s.seqFr) ∨
       (encodesNow s ∧ ∃ c, s.cellRead s.seqCell = some c ∧ t.seqFr = c.encoded ∧
         t.cells = s.cells.write s.seqCell.toNat c.reencoded))) := by
  unfold seqStep
  cases hp : s.seqPhase with
  | fData =>
    by_cases h : s.seqCmd = .refresh ∧ s.seqBit = 15
    · cases hc : s.cellRead s.seqCell with
      | none => exact .inl ⟨⟨hp, h.1, h.2⟩, rfl, by simp [phaseFData, h, hc]⟩
      | some c =>
        refine .inr ⟨_, phaseFData_encode h.1 h.2 hc, ?_⟩
        simp [driveBit, encodeCurrent, phaseEvent, hp, h, encodesNow, State.cellWrite, State.emit]
    · refine .inr ⟨_, phaseFData_plain h, ?_⟩
      simp [driveBit, phaseEvent, hp, encodesNow, State.emit]
      exact .inl (by simpa using h)
  | sLo =>
    refine .inr ⟨_, rfl, ?_⟩
    unfold phaseSLo
    dsimp only
    split_ifs <;> simp_all [phaseEvent, encodesNow, State.emit, State.finish]
  | fLo =>
    refine .inr ⟨_, rfl, ?_⟩
    unfold phaseFLo
    dsimp only
    split_ifs <;> simp_all [phaseEvent, encodesNow, State.emit, State.finish]
  | eLo =>
    refine .inr ⟨_, rfl, ?_⟩
    unfold phaseELo
    dsimp only
    split_ifs <;> simp_all [phaseEvent, encodesNow, State.emit, State.finish]
  | eData =>
    refine .inr ⟨_, rfl, ?_⟩
    unfold phaseEData
    dsimp only
    split_ifs <;> simp_all [phaseEvent, encodesNow, State.emit, State.finish]
  | sData =>
    exact .inr ⟨_, rfl, by simp [phaseSData, phaseEvent, hp, encodesNow, State.emit]⟩
  | sHi =>
    exact .inr ⟨_, rfl, by simp [phaseSHi, phaseEvent, hp, encodesNow, State.emit]⟩
  | fHi =>
    exact .inr ⟨_, rfl, by simp [phaseFHi, phaseEvent, hp, encodesNow, State.emit]⟩
  | eHi =>
    exact .inr ⟨_, rfl, by simp [phaseEHi, phaseEvent, hp, encodesNow, State.emit]⟩

theorem seqTurn_faulted {s : State} (h : s.fault ≠ none) : seqTurn s = .fault .blockStopped := by
  simp [seqTurn, (State.faulted_eq_true_iff s).2 h]

theorem seqTurn_idle {s : State} (hf : s.fault = none) (hi : s.seqCmd = .none) : seqTurn s = .next s := by
  simp [seqTurn, State.faulted, State.busy, hf, hi]

theorem seqTurn_busy {s : State} (hf : s.fault = none) (hb : s.seqCmd ≠ .none) : seqTurn s = seqStep s := by
  simp [seqTurn, State.faulted, hf, (State.busy_eq_true_iff s).2 hb]

theorem step_nil {s : State} (h : s.host = []) : step s = seqTurn s := by
  simp [step, h]

/-- While the host waits and BUSY is 1, each turn is the sequencer's. -/
theorem step_waits {s : State} (hw : HostWaits s) (hb : s.seqCmd ≠ .none) : step s = seqTurn s := by
  rcases hw with h | ⟨rest, h⟩
  · exact step_nil h
  · simp [step, h, hostTurn, (State.busy_eq_true_iff s).2 hb]

/-- A waiting host leaves a step of a busy, unfaulted block to the sequencer, and goes on waiting. -/
theorem step_waits_busy {s : State} (hw : HostWaits s) (hf : s.fault = none) (hb : s.seqCmd ≠ .none) :
    step s = seqStep s := by
  rw [step_waits hw hb, seqTurn_busy hf hb]

/-- Whether the host waits depends on its moves alone. -/
theorem HostWaits.congr {s t : State} (h : HostWaits s) (e : t.host = s.host) : HostWaits t := by
  rcases h with h | ⟨rest, h⟩
  · exact .inl (e.trans h)
  · exact .inr ⟨rest, e.trans h⟩

theorem step_cons {s : State} {m : HostMove} {rest : List HostMove} (h : s.host = m :: rest) :
    step s = hostTurn m rest s := by
  simp [step, h]

/-- Everything a step of the machine can do: the block is stopped; nobody has anything to do; the host makes a move that
touches nothing of the block; the host issues a word; or the sequencer takes a step, and then the host waits or passes its
turn. -/
theorem step_cases (s : State) :
    (s.fault ≠ none ∧ step s = .fault .blockStopped) ∨
    (s.fault = none ∧ s.seqCmd = .none ∧ s.host = [] ∧ step s = .next s) ∨
    (∃ m rest r, s.host = m :: rest ∧ step s = .next { s with host := rest, reads := s.reads ++ r }) ∨
    (∃ w rest, s.host = .issue w :: rest ∧ step s = issue w { s with host := rest }) ∨
    SequencerSteps s := by
  cases hh : s.host with
  | nil =>
    rw [step_nil hh]
    by_cases hf : s.fault = none
    · by_cases hi : s.seqCmd = .none
      · exact .inr (.inl ⟨hf, hi, rfl, seqTurn_idle hf hi⟩)
      · exact .inr (.inr (.inr (.inr ⟨hf, hi, s.host, .inl ⟨.inl hh, rfl⟩, step_waits_busy (.inl hh) hf hi⟩)))
    · exact .inl ⟨hf, seqTurn_faulted hf⟩
  | cons m rest =>
    rw [step_cons hh]
    cases m with
    | issue w => exact .inr (.inr (.inr (.inl ⟨w, rest, rfl, rfl⟩)))
    | readStatus => exact .inr (.inr (.inl ⟨_, rest, [.status s.status], rfl, rfl⟩))
    | readResp => exact .inr (.inr (.inl ⟨_, rest, [.resp s.resp], rfl, rfl⟩))
    | awaitIdle =>
      by_cases hb : s.busy = true
      · have hb' := (State.busy_eq_true_iff s).1 hb
        by_cases hf : s.fault = none
        · have hw : HostWaits s := .inr ⟨rest, hh⟩
          exact .inr (.inr (.inr (.inr ⟨hf, hb', s.host, .inl ⟨hw, rfl⟩, step_waits_busy hw hf hb'⟩)))
        · refine .inl ⟨hf, ?_⟩
          simp only [hostTurn, hb, if_true]
          exact seqTurn_faulted hf
      · exact .inr (.inr (.inl ⟨_, rest, [], rfl, by simp [hostTurn, hb]⟩))
    | pass =>
      by_cases he : s.seqEnabled = true
      · have h := he
        simp [State.seqEnabled, State.busy, State.faulted] at h
        refine .inr (.inr (.inr (.inr ⟨by simpa using h.2, h.1, rest, .inr hh, ?_⟩)))
        rw [step_cons hh]
        simp [hostTurn, he]
      · exact .inr (.inr (.inl ⟨_, rest, [], rfl, by simp [hostTurn, he]⟩))

/-- The three conditions of R222. -/
theorem State.runEnded_iff (s : State) :
    s.runEnded = true ↔ (∀ w, HostMove.issue w ∉ s.host) ∧ s.seqCmd = .none ∧ s.fault = none := by
  have hi : s.host.any HostMove.isIssue = false ↔ ∀ w, HostMove.issue w ∉ s.host := by
    rw [List.any_eq_false]
    constructor
    · intro h w hw
      exact h _ hw rfl
    · intro h m hm
      cases m with
      | issue w => exact absurd hm (h w)
      | awaitIdle | pass | readStatus | readResp => simp [HostMove.isIssue]
  simp [State.runEnded, State.faulted, ← hi, and_assoc]

@[simp] theorem runSteps_zero (s : State) : runSteps 0 s = .next s := rfl

theorem runSteps_succ_eq (k : Nat) (s : State) :
    runSteps (k + 1) s =
      match step s with
      | .next t => runSteps k t
      | .fault r => .fault r
      | .refused r => .refused r := rfl

theorem coreRun_next (M : Host.Core) (k : Nat) {s t : M.State} (h : M.step s = .next t) :
    M.run (k + 1) s = M.run k t := by
  rw [Host.Core.run, h]

theorem coreRun_fault (M : Host.Core) (k : Nat) {s : M.State} {r : M.Fault} (h : M.step s = .fault r) :
    M.run (k + 1) s = .fault r := by
  rw [Host.Core.run, h]

theorem coreRun_refused (M : Host.Core) (k : Nat) {s : M.State} {r : M.Refusal} (h : M.step s = .refused r) :
    M.run (k + 1) s = .refused r := by
  rw [Host.Core.run, h]

/-- `runSteps` is the host's own run of the machine. -/
theorem runSteps_eq_run (k : Nat) (s : State) : runSteps k s = Host.Core.run Sys2Proof.core k s := by
  induction k generalizing s with
  | zero => rfl
  | succ k ih =>
    rw [runSteps_succ_eq]
    cases h : step s with
    | next t => exact (ih t).trans (coreRun_next Sys2Proof.core k h).symm
    | fault r => exact (coreRun_fault Sys2Proof.core k h).symm
    | refused r => exact (coreRun_refused Sys2Proof.core k h).symm

theorem runSteps_succ (k : Nat) {s t : State} (h : step s = .next t) : runSteps (k + 1) s = runSteps k t := by
  rw [runSteps_succ_eq, h]

/-- A run of `a + b` steps is a run of `a` steps and then one of `b`. -/
theorem runSteps_add {a b : Nat} {s t : State} (h : runSteps a s = .next t) : runSteps (a + b) s = runSteps b t := by
  induction a generalizing s with
  | zero =>
    simp only [runSteps_zero, Host.Outcome.next.injEq] at h
    rw [Nat.zero_add, h]
  | succ a ih =>
    cases hs : step s with
    | next u =>
      rw [runSteps_succ a hs] at h
      rw [Nat.add_right_comm, runSteps_succ (a + b) hs]
      exact ih h
    | fault r => simp [runSteps_succ_eq, hs] at h
    | refused r => simp [runSteps_succ_eq, hs] at h

end Sys2Proof.Machine
end

