-- ==== Sys2Proof/Laws/Trace.lean ====
section
/-! SUPPORT. The laws of traces, and what the host alone cannot do to the invariant. -/

namespace Sys2Proof.Machine

/-- A line has the level of the last event on it (R33). -/
theorem lastLevel_append (line : Line) (t : List Event) (e : Event) :
    lastLevel line (t ++ [e]) = if e.line = line then Level.ofBool e.value else lastLevel line t := by
  simp [lastLevel, List.foldl_append]

theorem clockScan_append (t : List Event) (e : Event) : clockScan (t ++ [e]) = clockWatch (clockScan t) e := by
  simp [clockScan, List.foldl_append]

theorem pulseTrain_length (m : Nat) : (pulseTrain m).length = 2 * m := by
  induction m with
  | zero => rfl
  | succ m ih => simp [pulseTrain, pulseEvents, ih]; omega

theorem traceBits_length (f : Frame) (k : Nat) : (traceBits f k).length = 3 * k := by
  induction k with
  | zero => rfl
  | succ k ih => simp [traceBits, pulseEvents, ih]; omega

/-- A train of pulses moves no DATA. -/
theorem line_of_mem_pulseTrain {m : Nat} {e : Event} (h : e ∈ pulseTrain m) : e.line = .clk := by
  induction m with
  | zero => simp [pulseTrain] at h
  | succ m ih =>
    simp [pulseTrain, pulseEvents] at h
    rcases h with rfl | rfl | h
    · rfl
    · rfl
    · exact ih h

/-- As many cells as slots asked for, when each of them is created. -/
theorem Memory.slice_length (m : Memory) (k count : Nat) (h : m.createdFrom k count = true) :
    (m.slice k count).length = count := by
  induction count generalizing k with
  | zero => rfl
  | succ count ih =>
    simp [Memory.createdFrom] at h
    obtain ⟨c, hc⟩ := Option.isSome_iff_exists.1 h.1
    simp [Memory.slice, hc, ih (k + 1) h.2]

/-- The invariant says nothing of the host's moves and reads. -/
theorem Inv.host {s : State} (h : Inv s) (moves : List HostMove) (reads : List HostRead) :
    Inv { s with host := moves, reads := reads } := by
  obtain ⟨a, b, c, d, e, f, g, i, j, k, l, m, n⟩ := h
  exact ⟨a, b, c, d, e, f, g, i, j, k, l, m, n⟩

/-- Raising a fault keeps the invariant: STATUS alone changes (R130). -/
theorem Inv.raise {s : State} (h : Inv s) (code : FaultCode) : Inv (s.raiseFault code) := by
  obtain ⟨a, b, c, d, e, f, g, i, j, k, l, m, n⟩ := h
  exact ⟨a, b, c, d, e, f, g, i, j, k, l, m, n⟩

end Sys2Proof.Machine
end

