-- ==== Sys2Proof/Tests/Slice0.lean ====
section
/-! SUPPORT. The model's own tests: the assembler's checks, the decoder on words written out from the encodings, one or
two vectors of spec/95_test_vectors.md for each command and phase, and for each statement with hypotheses a state that
meets them. -/

namespace Sys2Proof.Tests

open Sys2Proof Sys2Proof.Machine

/-! ### Well-formedness of a line (R86): one ill-formed line for each check -/

theorem test_wf_good_line : AsmLine.wellFormed ⟨.setc, [65535, 255, 255, 255]⟩ = true := by decide
theorem test_wf_too_few : AsmLine.wellFormed ⟨.setc, [0, 1, 2]⟩ = false := by decide
theorem test_wf_too_many : AsmLine.wellFormed ⟨.start, [0]⟩ = false := by decide
theorem test_wf_index_too_large : AsmLine.wellFormed ⟨.enc, [65536]⟩ = false := by decide
theorem test_wf_count_too_large : AsmLine.wellFormed ⟨.refresh, [65536]⟩ = false := by decide
theorem test_wf_red_too_large : AsmLine.wellFormed ⟨.setc, [0, 256, 0, 0]⟩ = false := by decide
theorem test_wf_green_too_large : AsmLine.wellFormed ⟨.setc, [0, 0, 256, 0]⟩ = false := by decide
theorem test_wf_blue_too_large : AsmLine.wellFormed ⟨.setc, [0, 0, 0, 256]⟩ = false := by decide
theorem test_wf_code_too_large : AsmLine.wellFormed ⟨.encraw, [0, 65536]⟩ = false := by decide

/-! ### The assembler's text (R84 to R86); words from 95_test_vectors.md -/

theorem test_asm_setc :
    assembleText ['S', 'E', 'T', 'C', ' ', '0', ',', ' ', '3', '1', ',', ' ', '0', ',', ' ', '0'] =
      some 0x10000000001F0000 := by decide
theorem test_asm_encraw_hex :
    assembleText ['E', 'N', 'C', 'R', 'A', 'W', ' ', '0', ',', ' ', '0', 'x', '7', 'F', 'F', 'F'] =
      some 0x3000000000007FFF := by decide
theorem test_asm_init : assembleText ['I', 'N', 'I', 'T', ' ', '0'] = some 0x1000000000000000 := by decide
theorem test_asm_start : assembleText ['S', 'T', 'A', 'R', 'T'] = some 0x5000000000000000 := by decide
theorem test_asm_unknown_mnemonic : assembleText ['S', 'T', 'O', 'P'] = none := by decide
theorem test_asm_wrong_count : assembleText ['E', 'N', 'C', ' ', '1', ',', '2'] = none := by decide

/-! ### Decoding: each command's word written out from the encoding patterns of R78, and V3's ILLEGAL words -/

theorem test_decode_setc :
    decode 0b0001_000000000000_0000000000000011_00000000_11001000_01100100_00000111 = .cmd (.setc 3 200 100 7) := by
  decide
theorem test_decode_setc_all_operand_bits : decode 0x1000FFFF00FFFFFF = .cmd (.setc 65535 255 255 255) := by decide
theorem test_decode_enc :
    decode 0b0010_000000000000_0000000000000011_00000000_00000000_00000000_00000000 = .cmd (.enc 3) := by decide
theorem test_decode_encraw :
    decode 0b0011_000000000000_0000000000000101_00000000_00000000_10010010_00110100 = .cmd (.encraw 5 0x9234) := by
  decide
theorem test_decode_rdcell :
    decode 0b0100_000000000000_0000000000000011_00000000_00000000_00000000_00000000 = .cmd (.rdcell 3) := by decide
theorem test_decode_start :
    decode 0b0101_000000000000_0000000000000000_00000000_00000000_00000000_00000000 = .cmd .start := by decide
theorem test_decode_frame :
    decode 0b0110_000000000000_0000000100000000_00000000_00000000_00000000_00000000 = .cmd (.frame 256) := by decide
theorem test_decode_end :
    decode 0b0111_000000000000_0000000011111111_00000000_00000000_00000000_00000000 = .cmd (.endTrain 255) := by
  decide
theorem test_decode_refresh :
    decode 0b1000_000000000000_1111111111111111_00000000_00000000_00000000_00000000 = .cmd (.refresh 65535) := by
  decide
theorem test_decode_setc_bit48 : decode 0x1001000000000000 = .illegal (.reservedBit 1) := by decide
theorem test_decode_setc_bit59 : decode 0x1800000000000000 = .illegal (.reservedBit 1) := by decide
theorem test_decode_setc_bit24 : decode 0x1000000001000000 = .illegal (.reservedBit 1) := by decide
theorem test_decode_enc_bit0 : decode 0x2000000000000001 = .illegal (.reservedBit 2) := by decide
theorem test_decode_encraw_bit16 : decode 0x3000000000010000 = .illegal (.reservedBit 3) := by decide
theorem test_decode_encraw_code15 : decode 0x3000000000008000 = .cmd (.encraw 0 0x8000) := by decide
theorem test_decode_start_idx : decode 0x5000000100000000 = .illegal (.reservedBit 5) := by decide
theorem test_decode_op0 : decode 0x0000000000000000 = .illegal (.illegalOp 0) := by decide
theorem test_decode_op9 : decode 0x9000000000000000 = .illegal (.illegalOp 9) := by decide
theorem test_decode_opF : decode 0xF000000000000000 = .illegal (.illegalOp 15) := by decide
theorem test_decodeTableWord : decodeTableWord 64 0x2000000300000000 = some (.enc 3) := by decide
theorem test_encode_setc : encode (.setc 1 0 31 0) = 0x1000000100001F00 := by decide

/-! ### ENCODE and RAWENCODE: V1 and V2 -/

theorem test_encode_red : encodeFrame 31 0 0 = 0x83E0 := by decide
theorem test_encode_green : encodeFrame 0 31 0 = 0x801F := by decide
theorem test_encode_blue : encodeFrame 0 0 31 = 0xFC00 := by decide
theorem test_encode_masks : encodeFrame 200 100 7 = 0x9D04 := by decide
theorem test_encode_alternating : encodeFrame 21 10 5 = 0x96AA := by decide
theorem test_rawencode_bit15_ignored : rawEncode 0xFFFF = 0xFFFF ∧ rawEncode 0x8000 = 0x8000 := by decide
theorem test_rawencode_copies : rawEncode 0x1234 = 0x9234 := by decide

/-! ### One step of the machine -/

/-- The state after one step that answers a next state; a step that stops leaves the state it was given. -/
def after (s : State) : State :=
  match step s with
  | .next t => t
  | .fault _ => s
  | .refused _ => s

/-- A launch with four slots: 0, 1 and 3 created, 2 UNCREATED. Slot 0 holds a raw frame. -/
def small : State :=
  State.launch 4 [(0, ⟨1, 2, 3, 0xFFFF⟩), (1, ⟨31, 0, 0, 0x83E0⟩), (3, ⟨200, 100, 7, 0x9D04⟩)]

/-- `small` when its host issues one word. -/
def issuing (w : CmdWord) : State := small.withHost [.issue w]

/-- `small` with a REFRESH of `n` cells in progress, at a phase. -/
def refreshing (n : BitVec 16) (p : SeqPhase) : State :=
  { small with seqCmd := .refresh, seqN := n, seqM := n, seqPhase := p }

theorem test_setc_creates : (after (issuing 0x1000000200C86407)).cells.read 2 = some ⟨200, 100, 7, 0x9D04⟩ := by decide
theorem test_setc_range : (after (issuing 0x1000000400010101)).status = 0x22 := by decide
theorem test_enc : (after (issuing 0x2000000000000000)).cells.read 0 = some ⟨1, 2, 3, 0x8C22⟩ := by decide
theorem test_enc_uncreated : (after (issuing 0x2000000200000000)).status = 0x32 := by decide
theorem test_encraw : (after (issuing 0x3000000000001234)).cells.read 0 = some ⟨1, 2, 3, 0x9234⟩ := by decide
theorem test_encraw_uncreated : (after (issuing 0x3000000200000000)).status = 0x32 := by decide
theorem test_rdcell : (after (issuing 0x4000000300000000)).resp = 0x00009D0400C86407 := by decide
theorem test_rdcell_stale : (after (issuing 0x4000000000000000)).resp = 0x0000FFFF00010203 := by decide
theorem test_start_busy : (after (issuing 0x5000000000000000)).status = 1 := by decide
theorem test_frame_uncreated : (after (issuing 0x6000000200000000)).status = 0x32 := by decide
theorem test_frame_stored : (after (issuing 0x6000000000000000)).seqFr = 0xFFFF := by decide
theorem test_end_not_checked : (after (issuing 0x7000FFFF00000000)).status = 1 := by decide
theorem test_refresh_range : (after (issuing 0x8000000500000000)).status = 0x22 := by decide
theorem test_refresh_uncreated : (after (issuing 0x8000000300000000)).status = 0x32 := by decide
theorem test_illegal : (after (issuing 0x0000000000000000)).status = 0x12 := by decide
theorem test_busy_wins_over_illegal :
    (after ((refreshing 1 .sHi).withHost [.issue 0x0000000000000000])).status = 0x43 := by decide
theorem test_faulted_takes_nothing :
    (after ((small.raiseFault .indexRange).withHost [.issue 0x1000000000010101])).status = 0x22 := by decide

/-- V6, steps 1, 65, 66, 113 and 116 of a REFRESH of one cell. -/
theorem test_seq_step1 : (after (refreshing 1 .sData)).trace = [⟨.data, false⟩] := by decide
theorem test_seq_step65 :
    (after { refreshing 1 .sLo with seqCnt := 31 }).seqPhase = .fData ∧
    (after { refreshing 1 .sLo with seqCnt := 31 }).seqBit = 15 := by decide
theorem test_seq_step66_encodes :
    (after { refreshing 1 .fData with seqBit := 15 }).cells.read 0 = some ⟨1, 2, 3, 0x8C22⟩ ∧
    (after { refreshing 1 .fData with seqBit := 15 }).trace = [⟨.data, true⟩] := by decide
theorem test_seq_step113 : (after { refreshing 1 .fLo with seqBit := 0, seqCell := 0 }).seqPhase = .eData := by decide
theorem test_seq_step116 : (after { refreshing 1 .eLo with seqCnt := 0 }).status = 0 := by decide
theorem test_start_finishes :
    (after { small with seqCmd := .start, seqPhase := .sLo, seqCnt := 31 }).status = 0 := by decide
theorem test_end_zero : (after { small with seqCmd := .endTrain, seqPhase := .eData, seqM := 0 }).status = 0 := by decide
theorem test_frame_next_bit :
    (after { small with seqCmd := .frame, seqPhase := .fLo, seqBit := 15 }).seqBit = 14 := by decide

/-- V5 and W3: the traces and their bits. -/
theorem test_trace_frame :
    bitsFrom .z (traceFrame 0x8C22) =
      [.hi, .lo, .lo, .lo, .hi, .hi, .lo, .lo, .lo, .lo, .hi, .lo, .lo, .lo, .hi, .lo] := by decide
theorem test_trace_end5 : (traceEnd 5).length = 11 := by decide
theorem test_host_reads_status : (after (small.withHost [.readStatus])).reads = [.status 0] := by decide
theorem test_wait_leaves_the_turn : (after ((refreshing 1 .sHi).withHost [.awaitIdle])).host = [.awaitIdle] := by decide
theorem test_reset_runs_first_word :
    (after (State.reset.withFetchWord 64 0x1000000000000000)).cells.read 0 = some ⟨0, 0, 0, 0x8000⟩ := by decide

/-! ### Witnesses: for each statement with hypotheses, values that meet them together -/

/-- `small` is a valid launch, so it is a good state. -/
theorem small_inv : Inv small := by constructor <;> decide

/-- `small` faulted by an index out of range. -/
def stopped : State := small.raiseFault .indexRange

/-- `small` with a REFRESH of two cells cut short by BUSY_COMMAND. -/
def cutShort : State := { refreshing 2 .sData with fault := some .busyCommand }

/-- A REFRESH of two cells about to encode its first cell. -/
def encoding : State :=
  { refreshing 2 .fData with
    seqBit := 15, seqCell := 0, seqCnt := 32, outData := .lo, outClk := .lo, trace := traceStart }

/-- A good state of a FRAME in progress, the clock high. -/
def sendingFrame : State :=
  { small with
    seqCmd := .frame, seqPhase := .fLo, seqBit := 15, seqCell := 1, seqFr := 0x83E0, outData := .hi, outClk := .hi,
    trace := [⟨.data, true⟩, ⟨.clk, true⟩] }

theorem encoding_inv : Inv encoding := by constructor <;> decide
theorem sendingFrame_inv : Inv sendingFrame := by constructor <;> decide
theorem stopped_inv : Inv stopped := small_inv.raise _

theorem witness_SetcWritesRecord : small.fault = none ∧ small.seqCmd = .none ∧ (3 : Index).toNat < small.nCells.val := by
  decide
theorem witness_SetcWritesRecord_uncreated :
    (2 : Index).toNat < small.nCells.val ∧ small.cells.read (2 : Index).toNat = none := by decide
/-- For EncReencodesFrame, EncrawWritesFrameOnly, RdcellAnswersInResp, FrameIsAccepted, EncIsIdempotent and
StoredFrameIsSent. -/
theorem witness_created_cell :
    small.fault = none ∧ small.seqCmd = .none ∧ small.host = [] ∧ (3 : Index).toNat < small.nCells.val ∧
      small.cells.read (3 : Index).toNat = some ⟨200, 100, 7, 0x9D04⟩ := by decide
/-- For the statements of a whole transmission: a host with no move to come, and one that waits. -/
theorem witness_HostWaits :
    HostWaits small ∧ HostWaits (small.withHost [.awaitIdle, .issue 0x5000000000000000]) ∧
      (small.withHost [.awaitIdle, .issue 0x5000000000000000]).fault = none ∧
      (small.withHost [.awaitIdle, .issue 0x5000000000000000]).seqCmd = .none :=
  ⟨.inl rfl, .inr ⟨_, rfl⟩, rfl, rfl⟩
/-- For StartIsAccepted, EndIsAccepted, StartSegmentIsSent, EndSegmentIsSent and EmptyRefreshIsSent. -/
theorem witness_idle : small.fault = none ∧ small.seqCmd = .none ∧ small.host = [] := by decide
/-- For RefreshIsAccepted, RefreshSendsWholeStrip and RefreshDecomposes: a count at the first slot that is missing. -/
theorem witness_refresh :
    small.fault = none ∧ small.seqCmd = .none ∧ small.host = [] ∧ (2 : Index).toNat ≤ small.nCells.val ∧
      ∀ k, k < (2 : Index).toNat → (small.cells.read k).isSome = true := by decide
/-- REFRESH of every slot there is. -/
theorem witness_refresh_all :
    (1 : Index).toNat ≤ (State.launch 1 [(0, ⟨0, 0, 0, 0x8000⟩)]).nCells.val ∧
      ∀ k, k < (1 : Index).toNat → ((State.launch 1 [(0, ⟨0, 0, 0, 0x8000⟩)]).cells.read k).isSome = true := by decide
theorem witness_IndexOutOfRangeFaults :
    small.fault = none ∧ small.seqCmd = .none ∧ small.nCells.val ≤ (4 : Index).toNat ∧
      small.nCells.val < (5 : Index).toNat := by decide
theorem witness_UncreatedCellFaults :
    small.fault = none ∧ small.seqCmd = .none ∧ (2 : Index).toNat < small.nCells.val ∧
      small.cells.read (2 : Index).toNat = none ∧ (3 : Index).toNat ≤ small.nCells.val ∧
      (∃ k, k < (3 : Index).toNat ∧ small.cells.read k = none) :=
  ⟨rfl, rfl, by decide, rfl, by decide, 2, by decide, rfl⟩
theorem witness_UncreatedCellFaults_setc : ∃ t, exec (.setc 2 0 0 0) small = .next t := ⟨_, rfl⟩
theorem witness_IssueWhileBusyFaults : encoding.fault = none ∧ encoding.seqCmd ≠ .none := by decide
theorem witness_IllegalWordsFault :
    small.fault = none ∧ small.seqCmd = .none ∧ decode 0x0000000000000000 = .illegal (.illegalOp 0) ∧
      decode 0x5800000000000000 = .illegal (.reservedBit 5) := by decide
theorem witness_IllegalWordsFault_bit : mustBeZero 5 59 = true ∧ (0x5800000000000000 : CmdWord).getLsbD 59 = true := by
  decide
theorem witness_FaultIsSticky :
    stopped.fault ≠ none ∧ (stopped.withHost [.readStatus]).host = [.readStatus] ∧
      (stopped.withHost [.readResp]).host = [.readResp] ∧ cutShort.fault = some .busyCommand ∧ cutShort.seqCmd ≠ .none := by
  decide
theorem witness_FaultIsSticky_step : ∃ t, step (stopped.withHost [.issue 0x5000000000000000]) = .next t := ⟨_, rfl⟩
theorem witness_FaultPriority :
    stopped.fault ≠ none ∧ faultDue 0 encoding = some .busyCommand ∧ faultDue 0 small = some .illegalCommand ∧
      faultDue 0x2000000400000000 small = some .indexRange ∧ faultDue 0x8000000300000000 small = some .uncreatedCell ∧
      faultDue 0x8000000200000000 small = none := by decide
theorem witness_FaultPriority_seq : ∃ t, seqStep encoding = .next t := ⟨_, rfl⟩
/-- For StatusFields and RespOnlyByRdcell. -/
theorem witness_port_reads :
    (small.withHost [.readStatus]).host = [.readStatus] ∧ (small.withHost [.readResp]).host = [.readResp] := by decide
theorem witness_BusySetAndCleared_set :
    ∃ t, step (issuing 0x5000000000000000) = .next t ∧ (issuing 0x5000000000000000).seqCmd = .none ∧ t.seqCmd ≠ .none :=
  ⟨_, rfl, rfl, by decide⟩
theorem witness_BusySetAndCleared_cleared :
    ∃ t, step { small with seqCmd := .endTrain, seqPhase := .eData } = .next t ∧ t.seqCmd = .none :=
  ⟨_, rfl, rfl⟩
theorem witness_RespOnlyByRdcell :
    ∃ t, step (issuing 0x4000000300000000) = .next t ∧ t.resp ≠ (issuing 0x4000000300000000).resp :=
  ⟨_, rfl, by decide⟩
/-- StartPhaseSteps, clause by clause; the counts where the clauses meet. -/
theorem witness_StartPhaseSteps :
    (refreshing 2 .sData).seqPhase = .sData ∧ (refreshing 2 .sHi).seqPhase = .sHi ∧
      (30#16).toNat + 1 < 32 ∧ 32 ≤ (31#16).toNat + 1 ∧ (refreshing 0 .sLo).seqPhase = .sLo ∧
      ({ small with seqCmd := .start } : State).seqCmd = .start ∧ (refreshing 0 .sLo).seqCmd ≠ .start ∧
      (refreshing 0 .sLo).seqN = 0 ∧ (refreshing 1 .sLo).seqN ≠ 0 := by decide
/-- FramePhaseSteps, clause by clause; the last cell and the one before it. -/
theorem witness_FramePhaseSteps :
    encoding.seqPhase = .fData ∧ encoding.seqCmd = .refresh ∧ encoding.seqBit = 15 ∧
      encoding.cells.read encoding.seqCell.toNat = some ⟨1, 2, 3, 0xFFFF⟩ ∧
      ¬ (sendingFrame.seqCmd = .refresh ∧ sendingFrame.seqBit = 15) ∧ sendingFrame.seqPhase = .fLo ∧
      sendingFrame.seqBit ≠ 0 ∧ sendingFrame.seqCmd = .frame ∧ encoding.seqCmd ≠ .frame ∧
      (0 : Index).toNat + 1 < encoding.seqN.toNat ∧ encoding.seqN.toNat ≤ (1 : Index).toNat + 1 := by decide
/-- EndPhaseSteps, clause by clause; the last pulse and the one before it. -/
theorem witness_EndPhaseSteps :
    (refreshing 0 .eData).seqPhase = .eData ∧ (refreshing 0 .eData).seqM = 0 ∧ (refreshing 2 .eData).seqM ≠ 0 ∧
      (refreshing 2 .eHi).seqPhase = .eHi ∧ (refreshing 2 .eLo).seqPhase = .eLo ∧
      (0#16).toNat + 1 < (refreshing 2 .eLo).seqM.toNat ∧ (refreshing 2 .eLo).seqM.toNat ≤ (1#16).toNat + 1 := by decide
/-- For OneEventPerSequencerStep, StepsLeftCountDown and EveryRunEnds: a good busy state and a good idle one. -/
theorem witness_OneEventPerSequencerStep :
    Inv encoding ∧ encoding.host = [] ∧ encoding.seqCmd ≠ .none ∧ encoding.fault = none ∧
      Inv small ∧ small.host = [] ∧ ¬ (small.seqCmd ≠ .none ∧ small.fault = none) :=
  ⟨encoding_inv, rfl, by decide, rfl, small_inv, rfl, by decide⟩
theorem witness_StepsLeftCountDown_accepted :
    (∃ t, exec .start small = .next t) ∧ (∃ t, exec (.frame 1) small = .next t ∧ t.fault = none) ∧
      (∃ t, exec (.endTrain 0) small = .next t) ∧ ∃ t, exec (.refresh 2) small = .next t ∧ t.fault = none :=
  ⟨⟨_, rfl⟩, ⟨_, rfl, rfl⟩, ⟨_, rfl⟩, ⟨_, rfl, rfl⟩⟩
theorem witness_RefreshDiscardsRawFrame :
    (1 : Index).toNat < (2 : Index).toNat ∧ small.cells.read (1 : Index).toNat = some ⟨31, 0, 0, 0x83E0⟩ := by decide
/-- For DataMovesOnlyWhileClockLow, StepKeepsInv and OnlySequencerDrivesLines: steps that emit on each line. -/
theorem witness_good_steps :
    Inv encoding ∧ (∃ t, step encoding = .next t) ∧ Inv sendingFrame ∧ ∃ t, step sendingFrame = .next t :=
  ⟨encoding_inv, ⟨_, rfl⟩, sendingFrame_inv, ⟨_, rfl⟩⟩
theorem witness_ValidLaunchIsGood : launchValid small.nCells small.cells = true := by decide
theorem witness_StopsOnlyWhenFaulted :
    Inv stopped ∧ step stopped = .fault .blockStopped ∧ stopped.fault ≠ none ∧ stopped.host = [] :=
  ⟨stopped_inv, rfl, by decide, rfl⟩
theorem witness_CellMemoryStaysGood :
    encoding.cells.wf = true ∧ encoding.cells.inRange encoding.nCells.val = true ∧ encoding.cells.flagged = true ∧
      ∃ t, step encoding = .next t := ⟨by decide, by decide, by decide, _, rfl⟩
theorem witness_CreatedOnlyBySetc :
    ∃ t, step (issuing 0x1000000200000000) = .next t ∧ (issuing 0x1000000200000000).cells.read 2 = none ∧
      (t.cells.read 2).isSome = true ∧ ((issuing 0x1000000200000000).cells.read 3).isSome = true :=
  ⟨_, rfl, rfl, by decide, by decide⟩
theorem witness_OnlyEncrawBreaksAgreement :
    ∃ t, step (issuing 0x3000000100000000) = .next t ∧ agrees (issuing 0x3000000100000000).cells 1 = true ∧
      agrees t.cells 1 = false := ⟨_, rfl, by decide, by decide⟩
theorem witness_WellBehavedHostNeverFaultsBusy :
    (small.withHost [.awaitIdle, .issue 0x5000000000000000]).fault ≠ some .busyCommand ∧
      wellBehaved (!small.busy) [.awaitIdle, .issue 0x5000000000000000] = true ∧
      ∃ t, step (small.withHost [.awaitIdle, .issue 0x5000000000000000]) = .next t := ⟨by decide, by decide, _, rfl⟩
/-- SegmentsInOrder, clause by clause. -/
theorem witness_SegmentsInOrder :
    Inv encoding ∧ (∃ t, step encoding = .next t) ∧ encoding.seqCmd = .refresh ∧ encoding.segment = .frame ∧
      Inv sendingFrame ∧ (∃ t, step sendingFrame = .next t) ∧ sendingFrame.seqCmd = .frame ∧
      (refreshing 1 .sData).segment = .start ∧ (refreshing 0 .sData).seqN = 0 ∧ (refreshing 1 .sData).seqN ≠ 0 ∧
      (refreshing 1 .eLo).segment = .endTrain :=
  ⟨encoding_inv, ⟨_, rfl⟩, rfl, rfl, sendingFrame_inv, ⟨_, rfl⟩, rfl, rfl, rfl, by decide, rfl⟩
theorem refreshing_start_inv (n : BitVec 16) (h : n = 0 ∨ n = 1) : Inv (refreshing n .sData) := by
  rcases h with rfl | rfl <;> constructor <;> decide
theorem witness_SegmentsInOrder_accepted :
    ∃ t, step (issuing 0x8000000200000000) = .next t ∧ (issuing 0x8000000200000000).seqCmd = .none ∧
      t.seqCmd = .refresh := ⟨_, rfl, rfl, rfl⟩
/-- A run has ended though the host has a read, a pass or a wait to come; not while it has a word to issue. -/
theorem witness_EndedRunStaysEnded :
    small.runEnded = true ∧ (small.withHost [.readResp, .pass, .awaitIdle]).runEnded = true ∧
      (small.withHost [.awaitIdle, .issue 0x5000000000000000]).runEnded = false ∧ encoding.runEnded = false ∧
      stopped.runEnded = false := by decide
/-- WaitsAndPassedTurns, clause by clause. -/
theorem witness_WaitsAndPassedTurns :
    (small.withHost [.awaitIdle]).seqCmd = .none ∧ HostWaits (encoding.withHost [.awaitIdle]) ∧
      (encoding.withHost [.awaitIdle]).seqCmd ≠ .none ∧ encoding.fault = none ∧
      HostWaits (cutShort.withHost [.awaitIdle]) ∧ cutShort.seqCmd ≠ .none ∧ cutShort.fault ≠ none ∧
      (encoding.withHost [.pass]).host = [.pass] ∧ ¬ (small.seqCmd ≠ .none ∧ small.fault = none) ∧
      small.host = [] ∧ small.seqCmd = .none ∧ stopped.seqCmd = .none ∧ stopped.fault ≠ none :=
  ⟨rfl, .inr ⟨_, rfl⟩, by decide, rfl, .inr ⟨_, rfl⟩, by decide, by decide, rfl, by decide, rfl, rfl, rfl, by decide⟩
/-- For OnlySequencerDrivesLines and BusySetAndCleared: sequencer steps while the host waits and as it passes a turn, the
second a finish step. -/
theorem witness_SequencerSteps :
    SequencerSteps (encoding.withHost [.awaitIdle]) ∧
      SequencerSteps ({ small with seqCmd := .endTrain, seqPhase := .eData } : State) ∧
      SequencerSteps (sendingFrame.withHost [.pass]) :=
  ⟨⟨rfl, by decide, _, .inl ⟨.inr ⟨_, rfl⟩, rfl⟩, rfl⟩, ⟨rfl, by decide, _, .inl ⟨.inl rfl, rfl⟩, rfl⟩,
    ⟨rfl, by decide, _, .inr rfl, rfl⟩⟩
/-- Two states whose cell 0 has the same channels and different frames. -/
theorem witness_NoStaleBits :
    small.fault = none ∧ small.seqCmd = .none ∧ (0 : Index).toNat < small.nCells.val ∧
      (State.launch 1 [(0, ⟨1, 2, 3, 0x8C22⟩)]).fault = none ∧ (State.launch 1 [(0, ⟨1, 2, 3, 0x8C22⟩)]).seqCmd = .none ∧
      (0 : Index).toNat < (State.launch 1 [(0, ⟨1, 2, 3, 0x8C22⟩)]).nCells.val ∧
      small.cells.read (0 : Index).toNat = some ⟨1, 2, 3, 0xFFFF⟩ ∧
      (State.launch 1 [(0, ⟨1, 2, 3, 0x8C22⟩)]).cells.read (0 : Index).toNat = some ⟨1, 2, 3, 0x8C22⟩ := by decide
theorem witness_EqualReadsEqualMemories : small.cells.wf = true ∧ ∀ k, small.cells.read k = small.cells.read k :=
  ⟨by decide, fun _ => rfl⟩
/-- For StepIssuesDecodedCommand: an ILLEGAL word to come on an idle, a busy and a faulted block. -/
theorem witness_StepIssuesDecodedCommand_illegal :
    decode 0x0000000000000000 = .illegal (.illegalOp 0) ∧ (issuing 0x0000000000000000).host = [.issue 0] ∧
      small.fault = none ∧ small.seqCmd = .none ∧ encoding.fault = none ∧ encoding.seqCmd ≠ .none ∧
      stopped.fault ≠ none := by decide
/-- For EncodeOfDecode, DecoderFollowsOpcodeTable and StepIssuesDecodedCommand. -/
theorem witness_decodes :
    decode 0x2000000300000000 = .cmd (.enc 3) ∧ (issuing 0x2000000300000000).host = [.issue 0x2000000300000000] ∧
      opcodeRow (.enc 0) ∈ opcodeTable ∧ (opcodeRow (.enc 0)).holds 0x2000000300000000 = true := by decide
/-- For LaunchValues (with witness_SetcWritesRecord) and AssemblerWords: the largest operands, and one past them. -/
theorem witness_AssemblerWords :
    65535 < 65536 ∧ 255 < 256 ∧ (AsmLine.mk .start [0]).operands.length ≠ (AsmLine.mk .start [0]).op.widths.length ∧
      (AsmLine.mk .enc [65536]).operands[0]? = some 65536 ∧ (AsmLine.mk .enc [65536]).op.widths[0]? = some 16 ∧
      2 ^ 16 ≤ 65536 := by decide
/-- For EncodeBitByBit and RawEncodeBits: the last bit of each segment. -/
theorem witness_bit_ranges : 4 < 5 ∧ 14 < 15 := by decide

end Sys2Proof.Tests
end

namespace Sys2Proof.Machine

/-! ## Steps by their next states

What a step that answers a next state did: one closed form per branch of the sequencer's phases, and one case per kind
of step of the machine. Each whole-machine rule is a case split over these. -/

/-- The micro-steps of the sequencer, one constructor per branch of R141 to R149, each with its next state. -/
inductive SeqMove (s : State) : State → Prop where
  | sData (hp : s.seqPhase = .sData) :
      SeqMove s { s.emit .data false with seqCnt := 0, seqPhase := .sHi }
  | sHi (hp : s.seqPhase = .sHi) : SeqMove s { s.emit .clk true with seqPhase := .sLo }
  | sLoNext (hp : s.seqPhase = .sLo) (hc : s.seqCnt.toNat + 1 < startPulses) :
      SeqMove s { s.emit .clk false with seqCnt := .ofNat 16 (s.seqCnt.toNat + 1), seqPhase := .sHi }
  | sLoFinish (hp : s.seqPhase = .sLo) (hs : s.seqCmd = .start) (hc : startPulses ≤ s.seqCnt.toNat + 1) :
      SeqMove s { s.emit .clk false with seqCnt := .ofNat 16 (s.seqCnt.toNat + 1), seqCmd := .none }
  | sLoEnd (hp : s.seqPhase = .sLo) (hs : s.seqCmd ≠ .start) (hn : s.seqN = 0)
      (hc : startPulses ≤ s.seqCnt.toNat + 1) :
      SeqMove s { s.emit .clk false with seqCnt := .ofNat 16 (s.seqCnt.toNat + 1), seqPhase := .eData }
  | sLoFrame (hp : s.seqPhase = .sLo) (hs : s.seqCmd ≠ .start) (hn : s.seqN ≠ 0)
      (hc : startPulses ≤ s.seqCnt.toNat + 1) :
      SeqMove s { s.emit .clk false with
        seqCnt := .ofNat 16 (s.seqCnt.toNat + 1), seqCell := 0, seqBit := 15, seqPhase := .fData }
  | fDataEncode (c : CellRec) (hp : s.seqPhase = .fData) (hr : s.seqCmd = .refresh) (hb : s.seqBit = 15)
      (hc : s.cellRead s.seqCell = some c) : SeqMove s (driveBit (encodeCurrent c s))
  | fDataPlain (hp : s.seqPhase = .fData) (hn : ¬ (s.seqCmd = .refresh ∧ s.seqBit = 15)) : SeqMove s (driveBit s)
  | fHi (hp : s.seqPhase = .fHi) : SeqMove s { s.emit .clk true with seqPhase := .fLo }
  | fLoBit (hp : s.seqPhase = .fLo) (hb : 0 < s.seqBit.toNat) :
      SeqMove s { s.emit .clk false with seqBit := s.seqBit - 1, seqPhase := .fData }
  | fLoFinish (hp : s.seqPhase = .fLo) (hf : s.seqCmd = .frame) (hb : s.seqBit.toNat = 0) :
      SeqMove s { s.emit .clk false with seqCmd := .none }
  | fLoCell (hp : s.seqPhase = .fLo) (hf : s.seqCmd ≠ .frame) (hc : s.seqCell.toNat + 1 < s.seqN.toNat)
      (hb : s.seqBit.toNat = 0) :
      SeqMove s { s.emit .clk false with seqCell := s.seqCell + 1, seqBit := 15, seqPhase := .fData }
  | fLoEnd (hp : s.seqPhase = .fLo) (hf : s.seqCmd ≠ .frame) (hc : s.seqN.toNat ≤ s.seqCell.toNat + 1)
      (hb : s.seqBit.toNat = 0) :
      SeqMove s { s.emit .clk false with seqPhase := .eData }
  | eDataFinish (hp : s.seqPhase = .eData) (hm : s.seqM = 0) :
      SeqMove s { s.emit .data false with seqCnt := 0, seqCmd := .none }
  | eDataNext (hp : s.seqPhase = .eData) (hm : s.seqM ≠ 0) :
      SeqMove s { s.emit .data false with seqCnt := 0, seqPhase := .eHi }
  | eHi (hp : s.seqPhase = .eHi) : SeqMove s { s.emit .clk true with seqPhase := .eLo }
  | eLoNext (hp : s.seqPhase = .eLo) (hc : s.seqCnt.toNat + 1 < s.seqM.toNat) :
      SeqMove s { s.emit .clk false with seqCnt := .ofNat 16 (s.seqCnt.toNat + 1), seqPhase := .eHi }
  | eLoFinish (hp : s.seqPhase = .eLo) (hc : s.seqM.toNat ≤ s.seqCnt.toNat + 1) :
      SeqMove s { s.emit .clk false with seqCnt := .ofNat 16 (s.seqCnt.toNat + 1), seqCmd := .none }

theorem SeqMove.of_phaseSLo {s : State} (hp : s.seqPhase = .sLo) : SeqMove s (phaseSLo s) := by
  unfold phaseSLo
  dsimp only
  split_ifs with hc hs hn
  · exact .sLoNext hp hc
  · exact .sLoFinish hp hs (Nat.le_of_not_lt hc)
  · exact .sLoEnd hp hs (BitVec.eq_of_toNat_eq hn) (Nat.le_of_not_lt hc)
  · exact .sLoFrame hp hs (fun h => hn (by simp [h])) (Nat.le_of_not_lt hc)

theorem SeqMove.of_phaseFData {s t : State} (hp : s.seqPhase = .fData) (h : phaseFData s = .next t) :
    SeqMove s t := by
  by_cases hr : s.seqCmd = .refresh ∧ s.seqBit = 15
  · cases hc : s.cellRead s.seqCell with
    | none => simp [phaseFData, hr, hc] at h
    | some c =>
      rw [phaseFData_encode hr.1 hr.2 hc] at h
      cases h
      exact .fDataEncode c hp hr.1 hr.2 hc
  · rw [phaseFData_plain hr] at h
    cases h
    exact .fDataPlain hp hr

theorem SeqMove.of_phaseFLo {s : State} (hp : s.seqPhase = .fLo) : SeqMove s (phaseFLo s) := by
  unfold phaseFLo
  dsimp only
  split_ifs with hb hf hc
  · exact .fLoBit hp hb
  · exact .fLoFinish hp hf (Nat.eq_zero_of_not_pos hb)
  · exact .fLoCell hp hf hc (Nat.eq_zero_of_not_pos hb)
  · exact .fLoEnd hp hf (Nat.le_of_not_lt hc) (Nat.eq_zero_of_not_pos hb)

theorem SeqMove.of_phaseEData {s : State} (hp : s.seqPhase = .eData) : SeqMove s (phaseEData s) := by
  unfold phaseEData
  dsimp only
  split_ifs with hm
  · exact .eDataFinish hp (BitVec.eq_of_toNat_eq hm)
  · exact .eDataNext hp fun h => hm (by simp [h])

theorem SeqMove.of_phaseELo {s : State} (hp : s.seqPhase = .eLo) : SeqMove s (phaseELo s) := by
  unfold phaseELo
  dsimp only
  split_ifs with hc
  · exact .eLoNext hp hc
  · exact .eLoFinish hp (Nat.le_of_not_lt hc)

/-- Each answer of the sequencer's step is one of its micro-steps. -/
theorem SeqMove.of_seqStep {s t : State} (h : seqStep s = .next t) : SeqMove s t := by
  unfold seqStep at h
  cases hp : s.seqPhase <;> simp only [hp, Host.Outcome.next.injEq] at h
  case fData => exact .of_phaseFData hp h
  all_goals subst h
  case sData => exact .sData hp
  case sHi => exact .sHi hp
  case sLo => exact .of_phaseSLo hp
  case fHi => exact .fHi hp
  case fLo => exact .of_phaseFLo hp
  case eData => exact .of_phaseEData hp
  case eHi => exact .eHi hp
  case eLo => exact .of_phaseELo hp

/-- The kinds of step of the machine that answer a next state (R22, R61). -/
inductive StepEffect (s : State) : State → Prop where
  /-- The host waits, passes, reads, or issues a word to a faulted block: the block is as it was. -/
  | hostOnly (moves : List HostMove) (reads : List HostRead) :
      StepEffect s { s with host := moves, reads := reads }
  /-- The host issues a word that raises a fault. -/
  | raised (w : CmdWord) (rest : List HostMove) (code : FaultCode) (hh : s.host = .issue w :: rest)
      (hf : s.fault = none) (hb : code = .busyCommand ↔ s.seqCmd ≠ .none) :
      StepEffect s (({ s with host := rest } : State).raiseFault code)
  /-- The host issues a word whose command is accepted. -/
  | accepted {t : State} (w : CmdWord) (rest : List HostMove) (i : Instr) (hh : s.host = .issue w :: rest)
      (hd : decode w = .cmd i) (hf : s.fault = none) (hi : s.seqCmd = .none)
      (ha : AcceptedAs i { s with host := rest } t) : StepEffect s t
  /-- The sequencer makes a micro-step. -/
  | sequencer {t : State} (rest : List HostMove) (hs : SequencerSteps s)
      (hm : SeqMove { s with host := rest } t) : StepEffect s t

theorem StepEffect.of_issue {s t : State} {w : CmdWord} {rest : List HostMove} (hh : s.host = .issue w :: rest)
    (h : issue w { s with host := rest } = .next t) : StepEffect s t := by
  rcases issue_cases w { s with host := rest } with ⟨-, he⟩ | ⟨hf, code, hb, he⟩ | ⟨hf, hi, i, u, hd, ha, he⟩
  · rw [he] at h
    cases h
    exact .hostOnly rest s.reads
  · rw [he] at h
    cases h
    exact .raised w rest code hh hf hb
  · rw [he] at h
    cases h
    exact .accepted w rest i hh hd hf hi ha

theorem StepEffect.of_step {s t : State} (h : step s = .next t) : StepEffect s t := by
  rcases step_cases s with ⟨-, he⟩ | ⟨-, -, -, he⟩ | ⟨m, rest, r, -, he⟩ | ⟨w, rest, hh, he⟩ | hs
  · simp [he] at h
  · rw [he] at h
    cases h
    exact .hostOnly s.host s.reads
  · rw [he] at h
    cases h
    exact .hostOnly rest (s.reads ++ r)
  · exact .of_issue hh (he ▸ h)
  · have ⟨_, _, rest, _, he⟩ := hs
    exact .sequencer rest hs (.of_seqStep (he ▸ h))

/-! ### What a micro-step changes -/

/-- A micro-step keeps the command in progress or finishes it. -/
theorem SeqMove.seqCmd_kept_or_none {s t : State} (h : SeqMove s t) : t.seqCmd = s.seqCmd ∨ t.seqCmd = .none := by
  cases h with
  | sLoFinish | fLoFinish | eDataFinish | eLoFinish => exact .inr rfl
  | _ => exact .inl rfl

/-- No micro-step writes N_CELLS, RESP or the counts of the command in progress. -/
theorem SeqMove.kept {s t : State} (h : SeqMove s t) :
    t.nCells = s.nCells ∧ t.resp = s.resp ∧ t.seqN = s.seqN ∧ t.seqM = s.seqM := by
  cases h <;> exact ⟨rfl, rfl, rfl, rfl⟩

/-- Only the four phases of R150 finish. -/
theorem SeqMove.finishing_phase {s t : State} (h : SeqMove s t) (hb : s.seqCmd ≠ .none) (hi : t.seqCmd = .none) :
    s.seqPhase = .sLo ∨ s.seqPhase = .fLo ∨ s.seqPhase = .eData ∨ s.seqPhase = .eLo := by
  cases h with
  | sLoFinish hp => exact .inl hp
  | fLoFinish hp => exact .inr (.inl hp)
  | eDataFinish hp => exact .inr (.inr (.inl hp))
  | eLoFinish hp => exact .inr (.inr (.inr hp))
  | _ => exact absurd hi hb

/-- `t` has one event more than `s`, whose line took its value while the other kept its level (R34). -/
def EmitsOne (s t : State) : Prop :=
  ∃ e, t.trace = s.trace ++ [e] ∧
    (e.line = .data → t.outData = Level.ofBool e.value ∧ t.outClk = s.outClk) ∧
    (e.line = .clk → t.outClk = Level.ofBool e.value ∧ t.outData = s.outData)

theorem EmitsOne.of_data {s t : State} {v : Bool} (ht : t.trace = s.trace ++ [⟨.data, v⟩])
    (hd : t.outData = Level.ofBool v) (hc : t.outClk = s.outClk) : EmitsOne s t :=
  ⟨_, ht, fun _ => ⟨hd, hc⟩, nofun⟩

theorem EmitsOne.of_clk {s t : State} {v : Bool} (ht : t.trace = s.trace ++ [⟨.clk, v⟩])
    (hc : t.outClk = Level.ofBool v) (hd : t.outData = s.outData) : EmitsOne s t :=
  ⟨_, ht, nofun, fun _ => ⟨hc, hd⟩⟩

/-- Every micro-step emits exactly one event (R140). -/
theorem SeqMove.emitsOne {s t : State} (h : SeqMove s t) : EmitsOne s t := by
  cases h with
  | sData | fDataEncode | fDataPlain | eDataFinish | eDataNext => exact .of_data rfl rfl rfl
  | _ => exact .of_clk rfl rfl rfl

/-! ### What an acceptance changes -/

/-- The acceptance of a command drives no line and leaves N_CELLS alone (R131). -/
theorem AcceptedAs.lines_kept {i : Instr} {s t : State} (h : AcceptedAs i s t) :
    t.nCells = s.nCells ∧ t.trace = s.trace ∧ t.outData = s.outData ∧ t.outClk = s.outClk := by
  cases i with
  | setc => obtain ⟨-, rfl⟩ := h; exact ⟨rfl, rfl, rfl, rfl⟩
  | enc | encraw | rdcell | frame => obtain ⟨c, -, -, rfl⟩ := h; exact ⟨rfl, rfl, rfl, rfl⟩
  | start | endTrain => obtain rfl := h; exact ⟨rfl, rfl, rfl, rfl⟩
  | refresh => obtain ⟨-, -, rfl⟩ := h; exact ⟨rfl, rfl, rfl, rfl⟩

/-- RDCELL alone writes RESP (R28). -/
theorem AcceptedAs.rdcell_of_resp_ne {i : Instr} {s t : State} (h : AcceptedAs i s t) (hr : t.resp ≠ s.resp) :
    ∃ idx, i = .rdcell idx := by
  cases i with
  | rdcell idx => exact ⟨idx, rfl⟩
  | setc => obtain ⟨-, rfl⟩ := h; exact absurd rfl hr
  | enc | encraw | frame => obtain ⟨c, -, -, rfl⟩ := h; exact absurd rfl hr
  | start | endTrain => obtain rfl := h; exact absurd rfl hr
  | refresh => obtain ⟨-, -, rfl⟩ := h; exact absurd rfl hr

/-- The commands that set BUSY (R24). -/
def Transmits (i : Instr) : Prop :=
  i = .start ∨ (∃ idx, i = .frame idx) ∨ (∃ m, i = .endTrain m) ∨ ∃ n, i = .refresh n

/-- An acceptance on an idle block leaves BUSY 1 exactly when the command is one of the strip transmitter's (R24). -/
theorem AcceptedAs.busy_iff {i : Instr} {s t : State} (h : AcceptedAs i s t) (hi : s.seqCmd = .none) :
    t.seqCmd ≠ .none ↔ Transmits i := by
  cases i with
  | setc => obtain ⟨-, rfl⟩ := h; simp [Transmits, hi]
  | enc | encraw | rdcell => obtain ⟨c, -, -, rfl⟩ := h; simp [Transmits, hi]
  | frame => obtain ⟨c, -, -, rfl⟩ := h; simp [Transmits]
  | start | endTrain => obtain rfl := h; simp [Transmits]
  | refresh => obtain ⟨-, -, rfl⟩ := h; simp [Transmits]

/-! ### What a step does to cell memory -/

/-- The ways a step treats cell memory: it leaves it, or one CellWrite is made by a SETC, by an ENCRAW, or by an ENC or
the encode step of a REFRESH (R57). -/
inductive CellEffect (s t : State) : Prop where
  | kept (ht : t.cells = s.cells)
  | setc (w : CmdWord) (rest : List HostMove) (idx : Index) (r g b : Channel) (hh : s.host = .issue w :: rest)
      (hd : decode w = .cmd (.setc idx r g b)) (hlt : idx.toNat < s.nCells.val)
      (ht : t.cells = s.cells.write idx.toNat ⟨r, g, b, encodeFrame r g b⟩)
  | encraw (w : CmdWord) (rest : List HostMove) (idx : Index) (code : BitVec 16) (c : CellRec)
      (hh : s.host = .issue w :: rest) (hd : decode w = .cmd (.encraw idx code))
      (hc : s.cells.read idx.toNat = some c) (ht : t.cells = s.cells.write idx.toNat (c.withFrame (rawEncode code)))
  | reencoded (i : Nat) (c : CellRec) (hc : s.cells.read i = some c) (ht : t.cells = s.cells.write i c.reencoded)

/-- A micro-step leaves cell memory, or re-encodes the current cell (R144). -/
theorem SeqMove.cells_kept_or_reencoded {s t : State} (h : SeqMove s t) :
    t.cells = s.cells ∨
      ∃ c, s.cells.read s.seqCell.toNat = some c ∧ t.cells = s.cells.write s.seqCell.toNat c.reencoded := by
  cases h with
  | fDataEncode c hp hr hb hc => exact .inr ⟨c, hc, rfl⟩
  | _ => exact .inl rfl

theorem AcceptedAs.cellEffect {s t : State} {w : CmdWord} {rest : List HostMove} {i : Instr}
    (hh : s.host = .issue w :: rest) (hd : decode w = .cmd i) (h : AcceptedAs i { s with host := rest } t) :
    CellEffect s t := by
  cases i with
  | setc idx r g b => obtain ⟨hlt, rfl⟩ := h; exact .setc w rest idx r g b hh hd hlt rfl
  | enc idx => obtain ⟨c, -, hc, rfl⟩ := h; exact .reencoded _ c hc rfl
  | encraw idx code => obtain ⟨c, -, hc, rfl⟩ := h; exact .encraw w rest idx code c hh hd hc rfl
  | rdcell | frame => obtain ⟨c, -, -, rfl⟩ := h; exact .kept rfl
  | start | endTrain => obtain rfl := h; exact .kept rfl
  | refresh => obtain ⟨-, -, rfl⟩ := h; exact .kept rfl

theorem StepEffect.cellEffect {s t : State} (h : StepEffect s t) : CellEffect s t := by
  cases h with
  | hostOnly | raised => exact .kept rfl
  | accepted w rest i hh hd hf hi ha => exact ha.cellEffect hh hd
  | sequencer rest hs hm =>
    rcases hm.cells_kept_or_reencoded with ht | ⟨c, hc, ht⟩
    · exact .kept ht
    · exact .reencoded _ c hc ht

end Sys2Proof.Machine

namespace Sys2Proof.Machine

/-! ## BUSY, RESP, the lines and cell memory under every step -/

theorem StepEffect.nCells_kept {s t : State} (h : StepEffect s t) : t.nCells = s.nCells := by
  cases h with
  | hostOnly | raised => exact rfl
  | accepted w rest i hh hd hf hi ha => exact ha.lines_kept.1
  | sequencer rest hs hm => exact hm.kept.1

/-- A step never goes from one command in progress to another: a busy block takes none (R130). -/
theorem StepEffect.seqCmd_of_busy {s t : State} (h : StepEffect s t) (hb : s.seqCmd ≠ .none) :
    t.seqCmd = s.seqCmd ∨ t.seqCmd = .none := by
  cases h with
  | hostOnly | raised => exact .inl rfl
  | accepted w rest i hh hd hf hi ha => exact absurd hi hb
  | sequencer rest hs hm => exact hm.seqCmd_kept_or_none

/-- What sets BUSY: the acceptance of a word the host issues, on an idle block (R24). -/
theorem StepEffect.accepted_of_sets_busy {s t : State} (h : StepEffect s t) (hi : s.seqCmd = .none)
    (hb : t.seqCmd ≠ .none) :
    ∃ w rest i, s.host = .issue w :: rest ∧ decode w = .cmd i ∧ AcceptedAs i { s with host := rest } t := by
  cases h with
  | hostOnly | raised => exact absurd hi hb
  | accepted w rest i hh hd hf hi ha => exact ⟨w, rest, i, hh, hd, ha⟩
  | sequencer rest hs hm => exact absurd hi hs.2.1

/-- What clears BUSY: a micro-step of the sequencer (R24). -/
theorem StepEffect.sequencer_of_clears_busy {s t : State} (h : StepEffect s t) (hb : s.seqCmd ≠ .none)
    (hi : t.seqCmd = .none) : SequencerSteps s ∧ ∃ rest, SeqMove { s with host := rest } t := by
  cases h with
  | hostOnly | raised => exact absurd hi hb
  | accepted w rest i hh hd hf hidle ha => exact absurd hidle hb
  | sequencer rest hs hm => exact ⟨hs, rest, hm⟩

/-- Settles O20: an accepted command sets BUSY exactly when it transmits, and only a finishing micro-step clears it. -/
theorem busySetAndCleared : Obligations.BusySetAndCleared := by
  refine ⟨fun s => ?_, fun s t i hf hi he htf => ?_, fun s t hst => ⟨fun hi hb => ?_, fun hb hi => ?_⟩⟩
  · rw [State.status_busy, State.busy_eq_true_iff]
  · rcases exec_cases i s with ⟨hne, -⟩ | ⟨-, code, -, -, hr⟩ | ⟨-, -, u, ha, hu⟩
    · exact absurd hf hne
    · rw [hr] at he
      cases he
      simp at htf
    · rw [hu] at he
      cases he
      exact ha.busy_iff hi
  · obtain ⟨w, rest, i, hh, hd, ha⟩ := (StepEffect.of_step hst).accepted_of_sets_busy hi hb
    exact ⟨w, rest, i, hh, hd, (ha.busy_iff hi).1 hb⟩
  · obtain ⟨hs, rest, hm⟩ := (StepEffect.of_step hst).sequencer_of_clears_busy hb hi
    obtain ⟨e, ht, -⟩ := hm.emitsOne
    exact ⟨hs, hm.finishing_phase hb hi, e, ht⟩

/-- Settles O21: of all steps only an accepted RDCELL writes RESP. -/
theorem respOnlyByRdcell : Obligations.RespOnlyByRdcell := by
  refine ⟨State.launch_resp, fun s t hst hr => ?_, fun s rest hh => step_cons hh⟩
  cases StepEffect.of_step hst with
  | hostOnly | raised => exact absurd rfl hr
  | accepted w rest i hh hd hf hi ha =>
    obtain ⟨idx, rfl⟩ := ha.rdcell_of_resp_ne hr
    exact ⟨w, rest, idx, hh, hd⟩
  | sequencer rest hs hm => exact absurd hm.kept.2.1 hr

/-- Settles O39: no host move or acceptance writes TRACE or a line, and each micro-step emits one event. -/
theorem onlySequencerDrivesLines : Obligations.OnlySequencerDrivesLines := by
  refine ⟨State.launch_trace, fun s t hst => ?_⟩
  cases StepEffect.of_step hst with
  | hostOnly | raised => exact .inl ⟨rfl, rfl, rfl⟩
  | accepted w rest i hh hd hf hi ha => exact .inl ha.lines_kept.2
  | sequencer rest hs hm => exact .inr ⟨hs, hm.emitsOne⟩

/-! ### Cell memory -/

/-- Cell memory is in canonical form, holds only slots there are, and has the flag bit in every record. -/
structure GoodMemory (n : Nat) (m : Memory) : Prop where
  wf : m.wf = true
  inRange : m.inRange n = true
  flagged : m.flagged = true

theorem GoodMemory.write {n : Nat} {m : Memory} (h : GoodMemory n m) {i : Nat} {c : CellRec} (hi : i < n)
    (hc : c.frame.getLsbD 15 = true) : GoodMemory n (m.write i c) :=
  ⟨m.wf_write i c h.wf, Memory.inRange_write c hi h.inRange, Memory.flagged_write hc h.flagged⟩

theorem StepEffect.goodMemory {s t : State} (he : StepEffect s t) (h : GoodMemory s.nCells.val s.cells) :
    GoodMemory t.nCells.val t.cells := by
  rw [he.nCells_kept]
  cases he.cellEffect with
  | kept ht => exact ht ▸ h
  | setc w rest idx r g b hh hd hlt ht => exact ht ▸ h.write hlt (encodeFrame_flag r g b)
  | encraw w rest idx code c hh hd hc ht =>
    exact ht ▸ h.write (Memory.lt_of_read h.inRange hc) (rawEncode_flag code)
  | reencoded i c hc ht => exact ht ▸ h.write (Memory.lt_of_read h.inRange hc) c.encoded_flag

/-- Settles O44: each CellWrite is to a slot there is, of a record with the flag bit. -/
theorem cellMemoryStaysGood : Obligations.CellMemoryStaysGood := by
  intro s t hwf hr hf hst
  have ⟨hwf', hr', hf'⟩ := (StepEffect.of_step hst).goodMemory ⟨hwf, hr, hf⟩
  exact ⟨hwf', hr', hf'⟩

theorem Memory.isSome_read_write {m : Memory} {k : Nat} (i : Nat) (c : CellRec) (h : (m.read k).isSome = true) :
    ((m.write i c).read k).isSome = true := by
  rw [Memory.read_write]
  split
  · rfl
  · exact h

/-- A write to a created slot creates no other. -/
theorem Memory.read_write_eq_none {m : Memory} {i k : Nat} {c : CellRec} (d : CellRec) (hi : m.read i = some c)
    (hk : m.read k = none) : (m.write i d).read k = none := by
  rw [Memory.read_write_other m d (by rintro rfl; simp [hi] at hk), hk]

theorem CellEffect.isSome_read {s t : State} (h : CellEffect s t) {k : Nat} (hk : (s.cells.read k).isSome = true) :
    (t.cells.read k).isSome = true := by
  cases h with
  | kept ht => exact ht ▸ hk
  | setc w rest idx r g b hh hd hlt ht => exact ht ▸ Memory.isSome_read_write _ _ hk
  | encraw w rest idx code c hh hd hc ht => exact ht ▸ Memory.isSome_read_write _ _ hk
  | reencoded i c hc ht => exact ht ▸ Memory.isSome_read_write _ _ hk

/-- Settles O45: a CellWrite leaves every created slot created, and all but SETC's are to a created slot. -/
theorem createdOnlyBySetc : Obligations.CreatedOnlyBySetc := by
  intro s t hst
  have he := StepEffect.of_step hst
  refine ⟨he.nCells_kept, fun k => ⟨he.cellEffect.isSome_read, fun hn hs => ?_⟩⟩
  cases he.cellEffect with
  | kept ht => simp [ht, hn] at hs
  | setc w rest idx r g b hh hd hlt ht =>
    refine ⟨w, rest, idx, r, g, b, hh, hd, ?_⟩
    by_contra hk
    simp [ht, Memory.read_write_other _ _ (Ne.symm hk), hn] at hs
  | encraw w rest idx code c hh hd hc ht => simp [ht, Memory.read_write_eq_none _ hc hn] at hs
  | reencoded i c hc ht => simp [ht, Memory.read_write_eq_none _ hc hn] at hs

/-- A write to another slot leaves a slot's agreement as it was. -/
theorem agrees_write_other {m : Memory} {i k : Nat} (c : CellRec) (h : k ≠ i) :
    agrees (m.write i c) k = agrees m k := by
  simp [agrees, Memory.read_write_other m c h]

/-- A record with its own encoding as frame breaks no slot's agreement (R32). -/
theorem agrees_write_encoded {m : Memory} (i : Nat) {k : Nat} {c : CellRec} (hc : c.frame = c.encoded)
    (h : agrees m k = true) : agrees (m.write i c) k = true := by
  by_cases hk : k = i
  · simp [agrees, hk, hc]
  · rwa [agrees_write_other c hk]

/-- Settles O46: every CellWrite but ENCRAW's stores ENCODE of the record's channels. -/
theorem onlyEncrawBreaksAgreement : Obligations.OnlyEncrawBreaksAgreement := by
  intro s t k hst hs ht'
  cases (StepEffect.of_step hst).cellEffect with
  | kept ht => simp [ht, hs] at ht'
  | setc w rest idx r g b hh hd hlt ht =>
    rw [ht, agrees_write_encoded _ (c := ⟨r, g, b, _⟩) rfl hs] at ht'
    cases ht'
  | encraw w rest idx code c hh hd hc ht =>
    refine ⟨w, rest, idx, code, hh, hd, ?_⟩
    by_contra hk
    simp [ht, agrees_write_other _ (Ne.symm hk), hs] at ht'
  | reencoded i c hc ht =>
    rw [ht, agrees_write_encoded _ c.reencoded_frame hs] at ht'
    cases ht'

end Sys2Proof.Machine

namespace Sys2Proof.Machine

/-! ## The invariant

It has three parts, of cell memory, of the lines and of the sequencer's registers; each is kept on its own. -/

/-- The lines stand as TRACE left them, and every pulse is whole or is the one now high (R33, R154). -/
structure LinesFollow (tr : List Event) (data clk : Level) : Prop where
  data_eq : data = lastLevel .data tr
  clk_eq : clk = lastLevel .clk tr
  clocked : clockScan tr = some (clk == .hi)

/-- DATA may move while the clock is not high. -/
theorem LinesFollow.emit_data {tr : List Event} {d c : Level} (h : LinesFollow tr d c) (hc : (c == .hi) = false)
    (v : Bool) : LinesFollow (tr ++ [⟨.data, v⟩]) (.ofBool v) c where
  data_eq := by simp [lastLevel_append]
  clk_eq := by simp [lastLevel_append, h.clk_eq]
  clocked := by simp [clockScan_append, h.clocked, hc, clockWatch]

/-- The clock may rise when it is not high and fall when it is. -/
theorem LinesFollow.emit_clk {tr : List Event} {d c : Level} (h : LinesFollow tr d c) {v : Bool}
    (hc : (c == .hi) = !v) : LinesFollow (tr ++ [⟨.clk, v⟩]) d (.ofBool v) where
  data_eq := by simp [lastLevel_append, h.data_eq]
  clk_eq := by simp [lastLevel_append]
  clocked := by cases v <;> simp [clockScan_append, h.clocked, hc, clockWatch, Level.ofBool]

/-- The sequencer's registers fit the command in progress, the lines and cell memory: the part of the invariant that
speaks of them. -/
structure GoodSequencer (s : State) : Prop where
  clkHigh : (s.outClk == .hi) = (s.busy && s.seqPhase.endsPulse)
  phases : s.phaseLegal = true
  counts : s.busy = true → s.countLegal = true
  dataDriven : s.busy = true → s.dataDue.all (s.outData == ·) = true
  refreshing : s.seqCmd = .refresh → s.refreshLegal = true
  sending : s.sendsFrame = true → (s.cellRead s.seqCell).map CellRec.frame = some s.seqFr
  sendingFresh : s.sendsFrame = true → s.seqCmd = .refresh →
    (s.cellRead s.seqCell).map CellRec.encoded = some s.seqFr

/-- The invariant is that of cell memory, that of the lines and that of the sequencer. -/
theorem inv_iff (s : State) :
    Inv s ↔ GoodMemory s.nCells.val s.cells ∧ LinesFollow s.trace s.outData s.outClk ∧ GoodSequencer s := by
  constructor
  · rintro ⟨a, b, c, d, e, f, g, i, j, k, l, m, n⟩
    exact ⟨⟨a, b, c⟩, ⟨d, e, f⟩, ⟨g, i, j, k, l, m, n⟩⟩
  · rintro ⟨⟨a, b, c⟩, ⟨d, e, f⟩, ⟨g, i, j, k, l, m, n⟩⟩
    exact ⟨a, b, c, d, e, f, g, i, j, k, l, m, n⟩

/-- While no command is in progress nothing is asked of the sequencer but that the clock is not high. -/
theorem GoodSequencer.of_idle {s : State} (hi : s.seqCmd = .none) (hc : (s.outClk == .hi) = false) :
    GoodSequencer s where
  clkHigh := by simp [hc, State.busy, hi]
  phases := by simp [State.phaseLegal, hi]
  counts := by simp [State.busy, hi]
  dataDriven := by simp [State.busy, hi]
  refreshing := by simp [hi]
  sending := by simp [State.sendsFrame, hi]
  sendingFresh := by simp [hi]

/-- A valid launch has the invariant (R210). -/
theorem Inv.of_launch {n : Fin 65536} {cells0 : Memory} (h : launchValid n cells0 = true) :
    Inv (State.launch n cells0) := by
  simp only [launchValid, Bool.and_eq_true] at h
  obtain ⟨⟨hwf, hr⟩, hf⟩ := h
  exact (inv_iff _).2 ⟨⟨hwf, hr, hf⟩, ⟨rfl, rfl, rfl⟩, .of_idle rfl rfl⟩

/-- Settles O40: reset is a valid launch. -/
theorem resetIsGood : Obligations.ResetIsGood := Inv.of_launch (by decide)

theorem GoodSequencer.outClk_of_busy {s : State} (h : GoodSequencer s) (hb : s.seqCmd ≠ .none) :
    (s.outClk == .hi) = s.seqPhase.endsPulse := by
  simpa [(State.busy_eq_true_iff s).2 hb] using h.clkHigh

theorem Inv.outClk_of_idle {s : State} (h : Inv s) (hi : s.seqCmd = .none) : (s.outClk == .hi) = false := by
  simpa [State.busy, hi] using h.clkHigh

/-- The frame being sent is the stored frame of the cell being sent, freshly encoded in a REFRESH (R133, R155). -/
def SendsStored (s : State) : Prop :=
  ∃ c, s.cellRead s.seqCell = some c ∧ c.frame = s.seqFr ∧ (s.seqCmd = .refresh → c.encoded = s.seqFr)

/-- What the invariant says of the frame being sent. -/
theorem GoodSequencer.sendsStored {s : State} (h : GoodSequencer s) (hs : s.sendsFrame = true) : SendsStored s := by
  obtain ⟨c, hc, hf⟩ := Option.map_eq_some_iff.1 (h.sending hs)
  exact ⟨c, hc, hf, fun hr => by simpa [hc] using h.sendingFresh hs hr⟩

theorem SendsStored.sending {s : State} (h : SendsStored s) :
    (s.cellRead s.seqCell).map CellRec.frame = some s.seqFr ∧
      (s.seqCmd = .refresh → (s.cellRead s.seqCell).map CellRec.encoded = some s.seqFr) := by
  obtain ⟨c, hc, hf, he⟩ := h
  exact ⟨by simp [hc, hf], fun hr => by simp [hc, he hr]⟩

theorem State.refreshLegal_iff (s : State) :
    s.refreshLegal = true ↔
      s.seqN.toNat ≤ s.nCells.val ∧ s.cells.createdFrom 0 s.seqN.toNat = true ∧ s.seqM = s.seqN ∧
        (s.seqPhase.segment = .frame → s.seqCell.toNat < s.seqN.toNat) := by
  simp [State.refreshLegal, and_assoc, imp_iff_not_or]

/-- A command other than REFRESH is only in its own segment (R37). -/
theorem State.phaseLegal_cases {s : State} (h : s.phaseLegal = true) :
    s.seqCmd = .none ∨ s.seqCmd = .refresh ∨ (s.seqCmd = .start ∧ s.seqPhase.segment = .start) ∨
      (s.seqCmd = .frame ∧ s.seqPhase.segment = .frame) ∨
      (s.seqCmd = .endTrain ∧ s.seqPhase.segment = .endTrain) := by
  unfold State.phaseLegal at h
  cases hc : s.seqCmd <;> simp_all

theorem State.phaseLegal_of_refresh {s : State} (h : s.seqCmd = .refresh) : s.phaseLegal = true := by
  simp [State.phaseLegal, h]

/-- Moving within a segment keeps the phase one of the command's. -/
theorem State.phaseLegal_congr {s t : State} (h : s.phaseLegal = true) (hc : t.seqCmd = s.seqCmd)
    (hp : t.seqPhase.segment = s.seqPhase.segment) : t.phaseLegal = true := by
  simpa [State.phaseLegal, hc, hp] using h

/-- SEQ_FR is in use in the frame segment, but not before a REFRESH has encoded the cell (R133, R144). -/
theorem State.sendsFrame_iff {s : State} (h : s.phaseLegal = true) (hb : s.seqCmd ≠ .none) :
    s.sendsFrame = true ↔ s.seqPhase.segment = .frame ∧ ¬ encodesNow s := by
  rcases s.phaseLegal_cases h with hc | hc | ⟨hc, hp⟩ | ⟨hc, hp⟩ | ⟨hc, hp⟩
  · exact absurd hc hb
  · cases hp : s.seqPhase <;> simp [State.sendsFrame, SeqPhase.segment, encodesNow, hc, hp]
  all_goals simp [State.sendsFrame, encodesNow, hc, hp]

/-- The command that goes on after the start train is a REFRESH (R143). -/
theorem State.refresh_of_sLo {s : State} (h : s.phaseLegal = true) (hb : s.seqCmd ≠ .none)
    (hp : s.seqPhase = .sLo) (hs : s.seqCmd ≠ .start) : s.seqCmd = .refresh := by
  have := s.phaseLegal_cases h
  simpa [hp, SeqPhase.segment, hb, hs] using this

/-- The command that goes on after the last bit of a frame is a REFRESH (R146). -/
theorem State.refresh_of_fLo {s : State} (h : s.phaseLegal = true) (hb : s.seqCmd ≠ .none)
    (hp : s.seqPhase = .fLo) (hf : s.seqCmd ≠ .frame) : s.seqCmd = .refresh := by
  have := s.phaseLegal_cases h
  simpa [hp, SeqPhase.segment, hb, hf] using this

/-! ### An acceptance keeps the invariant -/

/-- What the sequencer is loaded with when a command is accepted: a first phase, in which the clock is not high and
nothing is yet asked of DATA and of the pulse counter. -/
theorem GoodSequencer.of_first_phase {s : State} (hc : (s.outClk == .hi) = false)
    (hp : s.seqPhase = .sData ∨ s.seqPhase = .fData ∨ s.seqPhase = .eData) (hph : s.phaseLegal = true)
    (hr : s.seqCmd = .refresh → s.refreshLegal = true) (hs : s.sendsFrame = true → SendsStored s) :
    GoodSequencer s where
  clkHigh := by rcases hp with hp | hp | hp <;> simp [hc, hp, SeqPhase.endsPulse]
  phases := hph
  counts := by rcases hp with hp | hp | hp <;> simp [State.countLegal, hp]
  dataDriven := by rcases hp with hp | hp | hp <;> simp [State.dataDue, hp]
  refreshing := hr
  sending h := (hs h).sending.1
  sendingFresh h := (hs h).sending.2

theorem AcceptedAs.goodSequencer {i : Instr} {s t : State} (ha : AcceptedAs i s t) (hi : s.seqCmd = .none)
    (hc : (s.outClk == .hi) = false) : GoodSequencer t := by
  cases i with
  | setc => obtain ⟨-, rfl⟩ := ha; exact .of_idle hi hc
  | enc | encraw | rdcell => obtain ⟨c, -, -, rfl⟩ := ha; exact .of_idle hi hc
  | start => obtain rfl := ha; exact .of_first_phase hc (.inl rfl) rfl nofun nofun
  | endTrain m => obtain rfl := ha; exact .of_first_phase hc (.inr (.inr rfl)) rfl nofun nofun
  | frame idx =>
    obtain ⟨c, -, hr, rfl⟩ := ha
    exact .of_first_phase hc (.inr (.inl rfl)) rfl nofun fun _ => ⟨c, hr, rfl, nofun⟩
  | refresh n =>
    obtain ⟨hn, hcr, rfl⟩ := ha
    exact .of_first_phase hc (.inl rfl) rfl (fun _ => (State.refreshLegal_iff _).2 ⟨hn, hcr, rfl, nofun⟩) nofun

/-! ### A micro-step keeps the invariant -/

/-- A DATA event comes while the clock is not high; a clock event takes the clock to the level it is not at (R154). -/
theorem SeqMove.linesFollow {s t : State} (hm : SeqMove s t) (hl : LinesFollow s.trace s.outData s.outClk)
    (hc : (s.outClk == .hi) = s.seqPhase.endsPulse) : LinesFollow t.trace t.outData t.outClk := by
  cases hm with
  | sData hp | fDataEncode _ hp | fDataPlain hp | eDataFinish hp | eDataNext hp =>
    exact hl.emit_data (by rw [hc, hp]; rfl) _
  | sHi hp | sLoNext hp | sLoFinish hp | sLoEnd hp | sLoFrame hp | fHi hp | fLoBit hp | fLoFinish hp | fLoCell hp
  | fLoEnd hp | eHi hp | eLoNext hp | eLoFinish hp => exact hl.emit_clk (by rw [hc, hp]; rfl)

/-- CLK is high exactly after the first event of a pulse. -/
theorem SeqMove.clkHigh {s t : State} (hm : SeqMove s t) (hb : s.busy = true)
    (hc : (s.outClk == .hi) = s.seqPhase.endsPulse) : (t.outClk == .hi) = (t.busy && t.seqPhase.endsPulse) := by
  cases hm with
  | sData hp | fDataEncode _ hp | fDataPlain hp | eDataNext hp =>
    rw [hp] at hc
    exact hc.trans (Bool.and_false _).symm
  | eDataFinish hp =>
    rw [hp] at hc
    exact hc
  | sHi | fHi | eHi => exact hb.symm.trans (Bool.and_true _).symm
  | sLoFinish | fLoFinish | eLoFinish => rfl
  | sLoNext | sLoEnd | sLoFrame | fLoBit | fLoCell | fLoEnd | eLoNext => exact (Bool.and_false _).symm

/-- A command that leaves its segment and does not finish is a REFRESH (R37). -/
theorem SeqMove.phaseLegal {s t : State} (hm : SeqMove s t) (hb : s.seqCmd ≠ .none) (h : s.phaseLegal = true) :
    t.phaseLegal = true := by
  cases hm with
  | sLoFinish | fLoFinish | eDataFinish | eLoFinish => rfl
  | sData hp | sHi hp | sLoNext hp | fDataEncode _ hp | fDataPlain hp | fHi hp | fLoBit hp | fLoCell hp
  | eDataNext hp | eHi hp | eLoNext hp => exact State.phaseLegal_congr h rfl (by rw [hp]; rfl)
  | sLoEnd hp hs | sLoFrame hp hs =>
    have hr := State.refresh_of_sLo h hb hp hs
    exact State.phaseLegal_of_refresh hr
  | fLoEnd hp hf =>
    have hr := State.refresh_of_fLo h hb hp hf
    exact State.phaseLegal_of_refresh hr

/-- A count below a bound of at most 65535 is stored exactly (R140). -/
theorem toNat_ofNat_succ_lt {n : Nat} {m : BitVec 16} (h : n + 1 < m.toNat) :
    (BitVec.ofNat 16 (n + 1)).toNat < m.toNat := by
  rwa [BitVec.toNat_ofNat, Nat.mod_eq_of_lt (h.trans m.isLt)]

/-- The pulse counter stays within its train. -/
theorem SeqMove.countLegal {s t : State} (hm : SeqMove s t) (h : s.countLegal = true) (hi : t.seqCmd ≠ .none) :
    t.countLegal = true := by
  cases hm with
  | sLoFinish | fLoFinish | eDataFinish | eLoFinish => exact absurd rfl hi
  | sData | sLoEnd | sLoFrame | fDataEncode | fDataPlain | fHi | fLoBit | fLoCell | fLoEnd => rfl
  | sHi hp | eHi hp =>
    unfold State.countLegal at h
    rw [hp] at h
    exact h
  | sLoNext hp hc => exact decide_eq_true (toNat_ofNat_succ_lt (m := 32) hc)
  | eLoNext hp hc => exact decide_eq_true (toNat_ofNat_succ_lt hc)
  | eDataNext hp hm => exact decide_eq_true (Nat.pos_of_ne_zero fun h => hm (BitVec.eq_of_toNat_eq h))

/-- DATA is what the phase's segment drives it to (R144, R153). -/
theorem SeqMove.dataDriven {s t : State} (hm : SeqMove s t) (h : s.dataDue.all (s.outData == ·) = true)
    (hi : t.seqCmd ≠ .none) : t.dataDue.all (t.outData == ·) = true := by
  cases hm with
  | sLoFinish | fLoFinish | eDataFinish | eLoFinish => exact absurd rfl hi
  | sData | sLoEnd | sLoFrame | fLoBit | fLoCell | fLoEnd | eDataNext => rfl
  | fDataEncode | fDataPlain => exact beq_self_eq_true _
  | sHi hp | sLoNext hp | fHi hp | eHi hp | eLoNext hp =>
    unfold State.dataDue at h
    rw [hp] at h
    exact h

/-- A REFRESH in progress keeps what it was accepted with, and the cell it sends is one of its own (R135, R144). -/
theorem SeqMove.refreshLegal {s t : State} (hm : SeqMove s t) (h : s.refreshLegal = true) (hi : t.seqCmd ≠ .none) :
    t.refreshLegal = true := by
  obtain ⟨hn, hcr, hmn, hcell⟩ := s.refreshLegal_iff.1 h
  cases hm with
  | sLoFinish | fLoFinish | eDataFinish | eLoFinish => exact absurd rfl hi
  | sData | sHi | sLoNext | sLoEnd | fLoEnd | eDataNext | eHi | eLoNext =>
    exact (State.refreshLegal_iff _).2 ⟨hn, hcr, hmn, nofun⟩
  | sLoFrame hp hs hn0 =>
    exact (State.refreshLegal_iff _).2
      ⟨hn, hcr, hmn, fun _ => Nat.pos_of_ne_zero fun h => hn0 (BitVec.eq_of_toNat_eq h)⟩
  | fDataPlain hp | fHi hp | fLoBit hp =>
    exact (State.refreshLegal_iff _).2 ⟨hn, hcr, hmn, fun _ => hcell (by rw [hp]; rfl)⟩
  | fDataEncode c hp =>
    exact (State.refreshLegal_iff _).2
      ⟨hn, Memory.createdFrom_write _ _ _ hcr, hmn, fun _ => hcell (by rw [hp]; rfl)⟩
  | fLoCell hp hf hc =>
    refine (State.refreshLegal_iff _).2 ⟨hn, hcr, hmn, fun _ => ?_⟩
    have : (s.seqCell + 1).toNat = s.seqCell.toNat + 1 := by
      have := s.seqN.isLt
      simp; omega
    exact this ▸ hc

/-- The frame of the cell being sent is loaded and encoded before its first bit, and no phase changes it or that cell
until the last (R133, R144). -/
theorem SeqMove.sendsStored {s t : State} (hm : SeqMove s t) (hph : s.phaseLegal = true) (hb : s.seqCmd ≠ .none)
    (h : s.sendsFrame = true → SendsStored s) (ht : t.sendsFrame = true) : SendsStored t := by
  have sends_iff := State.sendsFrame_iff hph hb
  have htl := hm.phaseLegal hb hph
  cases hm with
  | sLoFinish | fLoFinish | eDataFinish | eLoFinish => cases ht
  | sData | sHi | sLoNext | sLoEnd | fLoEnd | eDataNext | eHi | eLoNext =>
    have hseg := ((State.sendsFrame_iff htl hb).1 ht).1
    cases hseg
  | fDataEncode c => exact ⟨c.reencoded, Memory.read_write_same _ _ _, rfl, fun _ => rfl⟩
  | fDataPlain hp hn => exact h (sends_iff.2 ⟨by rw [hp]; rfl, fun he => hn he.2⟩)
  | fHi hp | fLoBit hp => exact h (sends_iff.2 ⟨by rw [hp]; rfl, fun he => by simp [encodesNow, hp] at he⟩)
  | sLoFrame hp hs =>
    have hr := State.refresh_of_sLo hph hb hp hs
    exact absurd ⟨rfl, hr, rfl⟩ ((State.sendsFrame_iff htl hb).1 ht).2
  | fLoCell hp hf =>
    have hr := State.refresh_of_fLo hph hb hp hf
    exact absurd ⟨rfl, hr, rfl⟩ ((State.sendsFrame_iff htl hb).1 ht).2

theorem SeqMove.goodSequencer {s t : State} (hm : SeqMove s t) (hb : s.seqCmd ≠ .none) (h : GoodSequencer s) :
    GoodSequencer t := by
  have hbusy := (State.busy_eq_true_iff s).2 hb
  have hsend (ht : t.sendsFrame = true) : SendsStored t := hm.sendsStored h.phases hb h.sendsStored ht
  exact {
    clkHigh := hm.clkHigh hbusy (h.outClk_of_busy hb)
    phases := hm.phaseLegal hb h.phases
    counts := fun ht => hm.countLegal (h.counts hbusy) ((State.busy_eq_true_iff t).1 ht)
    dataDriven := fun ht => hm.dataDriven (h.dataDriven hbusy) ((State.busy_eq_true_iff t).1 ht)
    refreshing := fun ht => by
      rcases hm.seqCmd_kept_or_none with hk | hk
      · exact hm.refreshLegal (h.refreshing (hk ▸ ht)) (by simp [ht])
      · simp [ht] at hk
    sending := fun ht => (hsend ht).sending.1
    sendingFresh := fun ht => (hsend ht).sending.2 }

/-! ### Every step keeps the invariant -/

/-- Settles O42: the invariant's three parts, each kept by every kind of step. -/
theorem stepKeepsInv : Obligations.StepKeepsInv := by
  intro s t h hst
  have he := StepEffect.of_step hst
  have ⟨hmem, hl, _⟩ := (inv_iff s).1 h
  have hmem' := he.goodMemory hmem
  cases he with
  | hostOnly moves reads => exact h.host moves reads
  | raised w rest code => exact (h.host rest s.reads).raise code
  | accepted w rest i hh hd hf hi ha =>
    obtain ⟨-, htr, hdata, hclk⟩ := ha.lines_kept
    have hl' : LinesFollow t.trace t.outData t.outClk := by rw [htr, hdata, hclk]; exact hl
    exact (inv_iff t).2 ⟨hmem', hl', ha.goodSequencer hi (h.outClk_of_idle hi)⟩
  | sequencer rest hs hm =>
    have ⟨_, hb, _⟩ := hs
    obtain ⟨-, -, hseq⟩ := (inv_iff _).1 (h.host rest s.reads)
    exact (inv_iff t).2 ⟨hmem', hm.linesFollow hl (hseq.outClk_of_busy hb), hm.goodSequencer hb hseq⟩

end Sys2Proof.Machine

namespace Sys2Proof.Machine

/-! ## Segments, cell memory as data, STATUS and launch -/

/-! ### The order of the segments (R37) -/

/-- The segments a REFRESH goes to from the one it is in. -/
def RefreshGoesTo (s : State) : Segment → Segment → Prop
  | .start, g => g = .start ∨ (s.seqN ≠ 0 ∧ g = .frame) ∨ (s.seqN = 0 ∧ g = .endTrain)
  | .frame, g => g = .frame ∨ g = .endTrain
  | .endTrain, g => g = .endTrain ∨ g = .idle
  | .idle, _ => False

theorem State.segment_of_busy {s : State} (h : s.seqCmd ≠ .none) : s.segment = s.seqPhase.segment := by
  simp [State.segment, h]

theorem State.segment_of_idle {s : State} (h : s.seqCmd = .none) : s.segment = .idle := by
  simp [State.segment, h]

/-- A good block with a command in progress other than a REFRESH is in the command's own segment. -/
theorem State.own_segment {s : State} (h : s.phaseLegal = true) :
    (s.seqCmd = .start → s.segment = .start) ∧ (s.seqCmd = .frame → s.segment = .frame) ∧
      (s.seqCmd = .endTrain → s.segment = .endTrain) := by
  have := s.phaseLegal_cases h
  refine ⟨fun hc => ?_, fun hc => ?_, fun hc => ?_⟩ <;> simpa [State.segment, hc] using this

theorem SeqMove.refreshGoesTo {s t : State} (hm : SeqMove s t) (hr : s.seqCmd = .refresh) :
    RefreshGoesTo s s.segment t.segment := by
  rw [s.segment_of_busy (by simp [hr])]
  cases hm with
  | sLoFinish hp hs | fLoFinish hp hs => simp [hr] at hs
  | sData hp | sHi hp | sLoNext hp | fDataEncode _ hp | fDataPlain hp | fHi hp | fLoBit hp | fLoCell hp | fLoEnd hp
  | eDataFinish hp | eDataNext hp | eHi hp | eLoNext hp | eLoFinish hp =>
    simp [hp, SeqPhase.segment, RefreshGoesTo, State.segment, driveBit, encodeCurrent, hr]
  | sLoEnd hp hs hn | sLoFrame hp hs hn =>
    simpa [hp, SeqPhase.segment, RefreshGoesTo, State.segment, hr] using hn

theorem StepEffect.refreshGoesTo {s t : State} (h : StepEffect s t) (hr : s.seqCmd = .refresh) :
    t.segment = s.segment ∨ RefreshGoesTo s s.segment t.segment := by
  cases h with
  | hostOnly | raised => exact .inl rfl
  | accepted w rest i hh hd hf hi ha => simp [hr] at hi
  | sequencer rest hs hm => exact .inr (hm.refreshGoesTo hr)

theorem StepEffect.refresh_enters_at_start {s t : State} (h : StepEffect s t) (hi : s.seqCmd = .none)
    (hr : t.seqCmd = .refresh) : t.segment = .start := by
  obtain ⟨w, rest, i, -, -, ha⟩ := h.accepted_of_sets_busy hi (by simp [hr])
  cases i with
  | refresh n => obtain ⟨-, -, rfl⟩ := ha; rfl
  | setc => obtain ⟨-, rfl⟩ := ha; simp [hi] at hr
  | enc | encraw | rdcell => obtain ⟨c, -, -, rfl⟩ := ha; simp [hi] at hr
  | frame => obtain ⟨c, -, -, rfl⟩ := ha; simp at hr
  | start | endTrain => obtain rfl := ha; simp at hr

/-- Settles O58: the invariant of the next state keeps a START, FRAME or END in its segment, and each micro-step of a
REFRESH goes only forward. -/
theorem segmentsInOrder : Obligations.SegmentsInOrder := by
  intro s t h hst
  have he := StepEffect.of_step hst
  obtain ⟨hstart, hframe, hend⟩ := State.own_segment (stepKeepsInv s t h hst).phases
  have own_or_idle {cmd : SeqCmd} {seg : Segment} (hb : cmd ≠ .none) (own : t.seqCmd = cmd → t.segment = seg)
      (hs : s.seqCmd = cmd) : t.segment = seg ∨ t.segment = .idle := by
    rcases he.seqCmd_of_busy (hs ▸ hb) with hk | hi
    · exact .inl (own (hk.trans hs))
    · exact .inr (State.segment_of_idle hi)
  refine ⟨own_or_idle nofun hstart, own_or_idle nofun hframe, own_or_idle nofun hend, he.refresh_enters_at_start, ?_⟩
  refine ⟨fun hr hseg => ?_, fun hr hseg => ?_, fun hr hseg => ?_⟩
  all_goals
    have := he.refreshGoesTo hr
    rw [hseg] at this
    simpa [RefreshGoesTo] using this

/-! ### Cell memory as data -/

/-- No slot before the first listed one is created. -/
theorem Memory.le_of_read_cons {j k : Nat} {c d : CellRec} {m : Memory} (hm : m.risingFrom (j + 1) = true)
    (h : Memory.read ((j, c) :: m) k = some d) : j ≤ k := by
  by_contra hk
  have hn : Memory.read ((j, c) :: m) k = none :=
    Memory.read_of_rising (lo := j) _ (by simp [Memory.risingFrom, hm]) (by omega)
  simp [hn] at h

/-- The tail of a canonical list reads as the list does, but for the first slot. -/
theorem Memory.read_tail {j : Nat} (c : CellRec) {m : Memory} (hm : m.risingFrom (j + 1) = true) (k : Nat) :
    m.read k = if k = j then none else Memory.read ((j, c) :: m) k := by
  split
  · subst_vars
    exact Memory.read_of_rising m hm (Nat.lt_succ_self _)
  · simp [Memory.read_cons, *]

theorem Memory.eq_of_read_eq {lo : Nat} {m m' : Memory} (hm : m.risingFrom lo = true) (hm' : m'.risingFrom lo = true)
    (h : ∀ k, m.read k = m'.read k) : m = m' := by
  induction m generalizing lo m' with
  | nil =>
    cases m' with
    | nil => rfl
    | cons p' m' =>
      obtain ⟨j', c'⟩ := p'
      simpa [Memory.read_cons] using h j'
  | cons p m ih =>
    obtain ⟨j, c⟩ := p
    cases m' with
    | nil => simpa [Memory.read_cons] using h j
    | cons p' m' =>
      obtain ⟨j', c'⟩ := p'
      simp only [Memory.risingFrom, Bool.and_eq_true, decide_eq_true_eq] at hm hm'
      have hle : j ≤ j' := Memory.le_of_read_cons (d := c') hm.2 ((h j').trans (by simp [Memory.read_cons]))
      have hge : j' ≤ j := Memory.le_of_read_cons (d := c) hm'.2 ((h j).symm.trans (by simp [Memory.read_cons]))
      obtain rfl : j = j' := by omega
      have hc : c = c' := by simpa [Memory.read_cons] using h j
      have hmm : m = m' := ih hm.2 hm'.2 fun k => by
        rw [Memory.read_tail c hm.2, Memory.read_tail c' hm'.2, h]
      rw [hc, hmm]

/-- Settles O50, by induction on the two lists: their first slots are each other's lower bound. -/
theorem equalReadsEqualMemories : Obligations.EqualReadsEqualMemories := fun _ _ => Memory.eq_of_read_eq

/-! ### STATUS and launch -/

/-- STATUS as a number: FCODE at 7:4, FAULTED at 1, BUSY at 0 (R23). -/
theorem State.status_toNat (s : State) :
    s.status.toNat = s.fcode.toNat * 2 ^ 4 + s.faulted.toNat * 2 + s.busy.toNat := by
  change BitVec.toNat (w := 24 + 4 + 2 + 1 + 1)
    ((0 : BitVec 24) ++ s.fcode ++ (0 : BitVec 2) ++ BitVec.ofBool s.faulted ++ BitVec.ofBool s.busy) = _
  simp only [toNat_append_eq, BitVec.toNat_ofBool]
  simp
  omega

/-- A field of STATUS is what is cut out of its number. -/
theorem State.status_field_eq {s : State} {lo n : Nat} {f : BitVec n}
    (h : (s.fcode.toNat * 2 ^ 4 + s.faulted.toNat * 2 + s.busy.toNat) / 2 ^ lo % 2 ^ n = f.toNat) :
    s.status.extractLsb' lo n = f := by
  apply BitVec.eq_of_toNat_eq
  rw [BitVec.extractLsb'_toNat, Nat.shiftRight_eq_div_pow, s.status_toNat, h]

/-- Settles O19: STATUS is its fields side by side, and its read is a move of the host alone. -/
theorem statusFields : Obligations.StatusFields := by
  intro s
  have hc := s.fcode.isLt
  have hf := s.faulted.toNat_le
  have hb := s.busy.toNat_le
  refine ⟨?_, s.status_faulted, ?_, ?_, ?_, fun rest hh => step_cons hh⟩
  · rw [State.status_busy]
    by_cases h : s.seqCmd = .none <;> simp [State.busy, h]
  · exact State.status_field_eq (by simp; omega)
  · have : s.status.extractLsb' 4 4 = s.fcode := State.status_field_eq (by omega)
    rw [this]
    unfold State.fcode
    rcases s.fault with _ | _ | _ | _ | _ <;> rfl
  · exact State.status_field_eq (by simp; omega)

theorem State.status_idle {s : State} (hf : s.fault = none) (hi : s.seqCmd = .none) : s.status = 0 := by
  simp only [State.status, State.fcode, State.faulted, State.busy, hf, hi]
  decide

/-- Settles O56: the launch record is that of R39, and INIT is SETC with three zero channels. -/
theorem launchValues : Obligations.LaunchValues := by
  refine ⟨fun n cells0 => ⟨State.status_idle rfl rfl, rfl, rfl, rfl, rfl, rfl, rfl⟩, fun k => rfl, fun i hi => ?_,
    fun s idx hf hi hlt => ?_⟩
  · have hw : AsmLine.wellFormed ⟨.init, [i]⟩ = true := by
      simp [AsmLine.wellFormed, AsmLine.countOk, AsmLine.fits, AsmOp.widths, hi]
    simp [assemble, hw, asmInstr]
  · have he : exec (.setc idx 0 0 0) s = .next (s.cellWrite idx ⟨0, 0, 0, encodeFrame 0 0 0⟩) := by
      simp only [exec, execSetc, accept_idle hf hi, withIndex_in hlt]
    exact ⟨_, he, Memory.read_write_same _ _ _⟩
end Sys2Proof.Machine

namespace Sys2Proof.Machine

/-! ## Waits, passed turns and a silent host -/

/-- The sequencer has a step exactly on a busy, unfaulted block (R140, R186). -/
theorem State.seqEnabled_eq_true_iff (s : State) : s.seqEnabled = true ↔ s.seqCmd ≠ .none ∧ s.fault = none := by
  rw [State.seqEnabled, Bool.and_eq_true, Bool.not_eq_true', s.busy_eq_true_iff, s.faulted_eq_false_iff]

/-- A wait is over, in a step of its own, once BUSY is 0 (log entry 13). -/
theorem step_awaitIdle_idle {s : State} {rest : List HostMove} (hh : s.host = .awaitIdle :: rest)
    (hi : s.seqCmd = .none) : step s = .next { s with host := rest } := by
  rw [step_cons hh]
  simp [hostTurn, s.busy_eq_false_iff.2 hi]

/-- A passed turn is the sequencer's when it has a step (log entry 3). -/
theorem step_pass_enabled {s : State} {rest : List HostMove} (hh : s.host = .pass :: rest)
    (he : s.seqCmd ≠ .none ∧ s.fault = none) : step s = seqStep { s with host := rest } := by
  rw [step_cons hh]
  simp [hostTurn, s.seqEnabled_eq_true_iff.2 he]

/-- With no step of the sequencer left to take, a passed turn costs the host its move and nothing else. -/
theorem step_pass_disabled {s : State} {rest : List HostMove} (hh : s.host = .pass :: rest)
    (he : ¬ (s.seqCmd ≠ .none ∧ s.fault = none)) : step s = .next { s with host := rest } := by
  rw [step_cons hh]
  simp [hostTurn, mt s.seqEnabled_eq_true_iff.1 he]

/-- Settles O60, clause by clause: a wait on an idle block, a wait or silence on a busy one (a fault stops it), a passed
turn, and silence on an idle block. -/
theorem waitsAndPassedTurns : Obligations.WaitsAndPassedTurns := by
  refine fun s => ⟨fun rest => step_awaitIdle_idle, fun hw hb hf => step_waits_busy hw hf hb, fun hw hb hf => ?_,
    fun rest hh => ⟨fun hb hf => step_pass_enabled hh ⟨hb, hf⟩, step_pass_disabled hh⟩,
    fun hh hi => ⟨fun hf => ?_, fun hf => ?_⟩⟩
  · rw [step_waits hw hb, seqTurn_faulted hf]
  · rw [step_nil hh, seqTurn_idle hf hi]
  · rw [step_nil hh, seqTurn_faulted hf]

end Sys2Proof.Machine

namespace Sys2Proof

/-! ## The command word by its fields

A word is a command's exactly when its fields are the command's: one lemma per shape of word, from the words as numbers.
The decoder and the opcode table look at the same fields, so both are tied to `encode` by these lemmas. -/

theorem bitField_eq_iff {w : CmdWord} {lo n : Nat} {f : BitVec n} :
    bitField w lo n = f ↔ w.toNat / 2 ^ lo % 2 ^ n = f.toNat := by
  rw [← bitField_toNat, BitVec.toNat_inj]

theorem highZero_iff {w : CmdWord} : highZero w = true ↔ bitField w 48 12 = 0 := by
  rw [highZero, beq_iff_eq]

/-- A word that uses no field but IDX (R78). -/
theorem eq_idxWord_iff {w : CmdWord} {op : BitVec 4} {idx : Index} :
    w = idxWord op idx ↔ opField w = op ∧ highZero w = true ∧ bitField w 0 32 = 0 ∧ idxField w = idx := by
  rw [← BitVec.toNat_inj, idxWord_toNat, highZero_iff, opField, idxField]
  simp only [bitField_eq_iff, BitVec.ofNat_eq_ofNat, BitVec.toNat_zero]
  have := w.isLt
  have := op.isLt
  have := idx.isLt
  omega

/-- The word of SETC (R78). -/
theorem eq_encode_setc_iff {w : CmdWord} {idx : Index} {r g b : Channel} :
    w = encode (.setc idx r g b) ↔ opField w = 1 ∧ highZero w = true ∧ bitField w 24 8 = 0 ∧
      idxField w = idx ∧ bitField w 16 8 = r ∧ bitField w 8 8 = g ∧ bitField w 0 8 = b := by
  rw [← BitVec.toNat_inj, encode_setc_toNat, highZero_iff, opField, idxField]
  simp only [bitField_eq_iff, BitVec.ofNat_eq_ofNat, BitVec.toNat_zero, BitVec.reduceToNat]
  have := w.isLt
  have := idx.isLt
  have := r.isLt
  have := g.isLt
  have := b.isLt
  omega

/-- The word of ENCRAW (R78). -/
theorem eq_encode_encraw_iff {w : CmdWord} {idx : Index} {code : BitVec 16} :
    w = encode (.encraw idx code) ↔ opField w = 3 ∧ highZero w = true ∧ bitField w 16 16 = 0 ∧
      idxField w = idx ∧ bitField w 0 16 = code := by
  rw [← BitVec.toNat_inj, encode_encraw_toNat, highZero_iff, opField, idxField]
  simp only [bitField_eq_iff, BitVec.ofNat_eq_ofNat, BitVec.toNat_zero, BitVec.reduceToNat]
  have := w.isLt
  have := idx.isLt
  have := code.isLt
  omega

/-- The word of START (R78). -/
theorem eq_encode_start_iff {w : CmdWord} : w = encode .start ↔ opField w = 5 ∧ bitField w 0 60 = 0 := by
  rw [← BitVec.toNat_inj, encode_start_toNat, opField]
  simp only [bitField_eq_iff, BitVec.ofNat_eq_ofNat, BitVec.toNat_zero, BitVec.reduceToNat]
  have := w.isLt
  omega

/-! ### Decoding and encoding -/

theorem need_eq_cmd_iff {w : CmdWord} {ok : Bool} {i j : Instr} : need w ok i = .cmd j ↔ ok = true ∧ i = j := by
  cases ok <;> simp [need]

/-- The check of a command with a reserved field below IDX (R78). -/
theorem need_highZero_eq_cmd_iff {w : CmdWord} {n : Nat} {f : BitVec n} {i j : Instr} :
    need w (highZero w && f == 0) i = .cmd j ↔ highZero w = true ∧ f = 0 ∧ i = j := by
  rw [need_eq_cmd_iff, Bool.and_eq_true, beq_iff_eq, and_assoc]

/-- The check of a command that uses no field but IDX: passed exactly by the words of its shape. -/
theorem need_idx_eq_cmd_iff {w : CmdWord} {op : BitVec 4} (hop : opField w = op) (c : Index → Instr) {i : Instr} :
    need w (highZero w && bitField w 0 32 == 0) (c (idxField w)) = .cmd i ↔
      w = idxWord op (idxField w) ∧ c (idxField w) = i := by
  rw [need_highZero_eq_cmd_iff, eq_idxWord_iff, ← and_assoc]
  simp only [hop, true_and, and_true]

/-- The word of a command that uses no field but IDX passes the check and gives IDX back. -/
theorem need_idxWord {op : BitVec 4} {idx : Index} (c : Index → Instr) :
    need (idxWord op idx) (highZero (idxWord op idx) && bitField (idxWord op idx) 0 32 == 0)
      (c (idxField (idxWord op idx))) = .cmd (c idx) := by
  obtain ⟨-, hhi, hlo, hidx⟩ := eq_idxWord_iff.1 (rfl : idxWord op idx = _)
  exact need_highZero_eq_cmd_iff.2 ⟨hhi, hlo, congrArg c hidx⟩

/-- Settles O51: the fields of a command's word are its OP, zeros, and its operands. -/
theorem decodeOfEncode : Obligations.DecodeOfEncode := by
  intro i
  have idx_op {op : BitVec 4} {idx : Index} : opField (idxWord op idx) = op := (eq_idxWord_iff.1 rfl).1
  cases i with
  | setc idx r g b =>
    obtain ⟨hop, hhi, hlo, hidx, hr, hg, hb⟩ := eq_encode_setc_iff.1 (rfl : encode (.setc idx r g b) = _)
    simp only [decode, hop]
    exact need_highZero_eq_cmd_iff.2 ⟨hhi, hlo, by rw [hidx, hr, hg, hb]⟩
  | encraw idx code =>
    obtain ⟨hop, hhi, hlo, hidx, hc⟩ := eq_encode_encraw_iff.1 (rfl : encode (.encraw idx code) = _)
    simp only [decode, hop]
    exact need_highZero_eq_cmd_iff.2 ⟨hhi, hlo, by rw [hidx, hc]⟩
  | start => decide
  | enc idx => simp only [decode, encode, idx_op]; exact need_idxWord .enc
  | rdcell idx => simp only [decode, encode, idx_op]; exact need_idxWord .rdcell
  | frame idx => simp only [decode, encode, idx_op]; exact need_idxWord .frame
  | endTrain m => simp only [decode, encode, idx_op]; exact need_idxWord .endTrain
  | refresh n => simp only [decode, encode, idx_op]; exact need_idxWord .refresh

/-- Settles O52: along the decoder's branches, OP and the check fix every bit that is no operand's. -/
theorem encodeOfDecode : Obligations.EncodeOfDecode := by
  intro w i h
  have idx {op : BitVec 4} (c : Index → Instr) (hc : ∀ idx, encode (c idx) = idxWord op idx)
      (hop : (opField w).toNat = op.toNat)
      (hn : need w (highZero w && bitField w 0 32 == 0) (c (idxField w)) = .cmd i) : encode i = w := by
    obtain ⟨hw, rfl⟩ := (need_idx_eq_cmd_iff (BitVec.eq_of_toNat_eq hop) c).1 hn
    exact (hc _).trans hw.symm
  unfold decode at h
  split at h
  next hop =>
    obtain ⟨hhi, hlo, rfl⟩ := need_highZero_eq_cmd_iff.1 h
    exact (eq_encode_setc_iff.2 ⟨BitVec.eq_of_toNat_eq hop, hhi, hlo, rfl, rfl, rfl, rfl⟩).symm
  next hop => exact idx .enc (fun _ => rfl) hop h
  next hop =>
    obtain ⟨hhi, hlo, rfl⟩ := need_highZero_eq_cmd_iff.1 h
    exact (eq_encode_encraw_iff.2 ⟨BitVec.eq_of_toNat_eq hop, hhi, hlo, rfl, rfl⟩).symm
  next hop => exact idx .rdcell (fun _ => rfl) hop h
  next hop =>
    obtain ⟨hok, rfl⟩ := need_eq_cmd_iff.1 h
    exact (eq_encode_start_iff.2 ⟨BitVec.eq_of_toNat_eq hop, beq_iff_eq.1 hok⟩).symm
  next hop => exact idx .frame (fun _ => rfl) hop h
  next hop => exact idx .endTrain (fun _ => rfl) hop h
  next hop => exact idx .refresh (fun _ => rfl) hop h
  next => cases h

theorem decode_eq_cmd_iff {w : CmdWord} {i : Instr} : decode w = .cmd i ↔ encode i = w :=
  ⟨encodeOfDecode w i, fun h => h ▸ decodeOfEncode i⟩

/-- Settles O55: the legal ones are the words of their commands. -/
theorem sampleWordsDecode : Obligations.SampleWordsDecode :=
  ⟨decode_eq_cmd_iff.2 rfl, decode_eq_cmd_iff.2 rfl, decode_eq_cmd_iff.2 rfl, decode_eq_cmd_iff.2 rfl,
    decode_eq_cmd_iff.2 rfl, by decide⟩

/-! ### The opcode table -/

theorem holds_encode (i : Instr) : (opcodeRow i).holds (encode i) = true := by
  cases i with
  | setc idx r g b => exact Laws.EncodeRow.setc idx r g b
  | enc idx => exact Laws.EncodeRow.enc idx
  | encraw idx code => exact Laws.EncodeRow.encraw idx code
  | rdcell idx => exact Laws.EncodeRow.rdcell idx
  | start => exact Laws.EncodeRow.start
  | frame idx => exact Laws.EncodeRow.frame idx
  | endTrain m => exact Laws.EncodeRow.endTrain m
  | refresh n => exact Laws.EncodeRow.refresh n

theorem mem_opcodeTable_iff {row : OpcodeRow} : row ∈ opcodeTable ↔ ∃ i, opcodeRow i = row := by
  constructor
  · simp only [opcodeTable, List.mem_cons, List.not_mem_nil, or_false]
    rintro (h | h | h | h | h | h | h | h) <;> exact ⟨_, h.symm⟩
  · rintro ⟨i, rfl⟩
    cases i <;> simp [opcodeTable, opcodeRow]

/-- A field whose bits are all under the mask is the pattern's. -/
theorem bitField_of_masked {w mask pattern : CmdWord} {lo n : Nat} {f : BitVec n} (h : w &&& mask = pattern)
    (hm : bitField mask lo n = BitVec.allOnes n) (hp : bitField pattern lo n = f) : bitField w lo n = f := by
  calc bitField w lo n = bitField w lo n &&& bitField mask lo n := by rw [hm, BitVec.and_allOnes]
    _ = bitField (w &&& mask) lo n := BitVec.extractLsb'_and.symm
    _ = f := by rw [h, hp]

/-- The converse of `idxWord_masked`: the mask leaves out IDX only. -/
theorem eq_idxWord_of_masked {w : CmdWord} {op : BitVec 4} (h : w &&& 0xFFFF0000FFFFFFFF = idxWord op 0) :
    w = idxWord op (idxField w) := by
  obtain ⟨hop, hhi, hlo, -⟩ := eq_idxWord_iff.1 (rfl : idxWord op 0 = _)
  exact eq_idxWord_iff.2 ⟨bitField_of_masked h (by decide) hop,
    highZero_iff.2 (bitField_of_masked h (by decide) (highZero_iff.1 hhi)), bitField_of_masked h (by decide) hlo, rfl⟩

/-- A word of a command's row is the word of that command with some operands. -/
theorem exists_encode_of_holds {w : CmdWord} {j : Instr} (h : (opcodeRow j).holds w = true) :
    ∃ i, encode i = w := by
  have hw := beq_iff_eq.1 h
  cases j with
  | setc =>
    change w &&& 0xFFFF0000FF000000 = 0x1000000000000000 at hw
    exact ⟨.setc .., (eq_encode_setc_iff.2 ⟨bitField_of_masked hw (by decide) (by decide),
      highZero_iff.2 (bitField_of_masked hw (by decide) (by decide)),
      bitField_of_masked hw (by decide) (by decide), rfl, rfl, rfl, rfl⟩).symm⟩
  | encraw =>
    change w &&& 0xFFFF0000FFFF0000 = 0x3000000000000000 at hw
    exact ⟨.encraw .., (eq_encode_encraw_iff.2 ⟨bitField_of_masked hw (by decide) (by decide),
      highZero_iff.2 (bitField_of_masked hw (by decide) (by decide)),
      bitField_of_masked hw (by decide) (by decide), rfl, rfl⟩).symm⟩
  | start => exact ⟨.start, (BitVec.and_allOnes.symm.trans hw).symm⟩
  | enc => exact ⟨.enc _, (eq_idxWord_of_masked (op := 2) hw).symm⟩
  | rdcell => exact ⟨.rdcell _, (eq_idxWord_of_masked (op := 4) hw).symm⟩
  | frame => exact ⟨.frame _, (eq_idxWord_of_masked (op := 6) hw).symm⟩
  | endTrain => exact ⟨.endTrain _, (eq_idxWord_of_masked (op := 7) hw).symm⟩
  | refresh => exact ⟨.refresh _, (eq_idxWord_of_masked (op := 8) hw).symm⟩

/-- A word's OP tells its row: every row's mask has OP, and no two rows have the same. -/
theorem row_eq_of_holds {w : CmdWord} {row row' : OpcodeRow} (hr : row ∈ opcodeTable) (hr' : row' ∈ opcodeTable)
    (h : row.holds w = true) (h' : row'.holds w = true) : row = row' := by
  have hmask : ∀ row ∈ opcodeTable, bitField row.mask 60 4 = BitVec.allOnes 4 := by decide
  have hinj : ∀ row ∈ opcodeTable, ∀ row' ∈ opcodeTable, opField row.pattern = opField row'.pattern → row = row' := by
    decide
  have hop : opField w = opField row.pattern := bitField_of_masked (beq_iff_eq.1 h) (hmask row hr) rfl
  have hop' : opField w = opField row'.pattern := bitField_of_masked (beq_iff_eq.1 h') (hmask row' hr') rfl
  exact hinj row hr row' hr' (hop.symm.trans hop')

/-- Settles O53: the words that decode and the words of the rows are both the words `encode` gives. -/
theorem decoderFollowsOpcodeTable : Obligations.DecoderFollowsOpcodeTable := by
  intro w
  have of_decode {i : Instr} (hd : decode w = .cmd i) : (opcodeRow i).holds w = true :=
    decode_eq_cmd_iff.1 hd ▸ holds_encode i
  refine ⟨⟨?_, ?_⟩, fun _ _ => row_eq_of_holds, fun _ => of_decode⟩
  · rintro ⟨i, hd⟩
    exact ⟨_, mem_opcodeTable_iff.2 ⟨i, rfl⟩, of_decode hd⟩
  · rintro ⟨row, hr, h⟩
    obtain ⟨j, rfl⟩ := mem_opcodeTable_iff.1 hr
    obtain ⟨i, hi⟩ := exists_encode_of_holds h
    exact ⟨i, decode_eq_cmd_iff.2 hi⟩

end Sys2Proof

namespace Sys2Proof.Machine

/-! ## The assembler's lines -/

/-- The check of R86, operand by operand. -/
theorem wellFormed_iff {l : AsmLine} :
    l.wellFormed = true ↔ l.operands.length = l.op.widths.length ∧
      ∀ j v n : Nat, l.operands[j]? = some v → l.op.widths[j]? = some n → v < 2 ^ n := by
  simp only [AsmLine.wellFormed, AsmLine.countOk, AsmLine.fits, Bool.and_eq_true, beq_iff_eq, List.all_eq_true,
    decide_eq_true_eq, List.mem_iff_getElem?, Prod.forall, List.getElem?_zip_eq_some]
  exact and_congr_right fun _ =>
    ⟨fun h j v n hv hn => h v n ⟨j, hv, hn⟩, fun h v n ⟨j, hv, hn⟩ => h j v n hv hn⟩

/-- A line that is not well-formed gives no word (R86). -/
theorem assemble_eq_none {l : AsmLine} (h : ¬ l.wellFormed = true) : assemble l = none := if_neg h

theorem assemble_eq_encode {l : AsmLine} {i : Instr} (hw : l.wellFormed = true)
    (hi : asmInstr l.op l.operands = some i) : assemble l = some (encode i) := by
  rw [assemble, if_pos hw, hi, Option.map_some]

/-- The word of a command that uses no field but IDX, as a number (R84). -/
theorem assemble_idx_toNat {aop : AsmOp} (op : BitVec 4) (c : Index → Instr) {i : Nat} (hi : i < 65536)
    (hw : aop.widths = [16]) (ha : asmInstr aop [i] = some (c (.ofNat 16 i)))
    (hc : encode (c (.ofNat 16 i)) = idxWord op (.ofNat 16 i)) :
    (assemble ⟨aop, [i]⟩).map BitVec.toNat = some (op.toNat * 2 ^ 60 + i * 2 ^ 32) := by
  rw [assemble_eq_encode (by simp [AsmLine.wellFormed, AsmLine.countOk, AsmLine.fits, hw, hi]) ha, Option.map_some, hc,
    idxWord_toNat, BitVec.toNat_ofNat, Nat.mod_eq_of_lt hi]

theorem assemble_setc_toNat {i r g b : Nat} (hi : i < 65536) (hr : r < 256) (hg : g < 256) (hb : b < 256) :
    (assemble ⟨.setc, [i, r, g, b]⟩).map BitVec.toNat =
      some (1 * 2 ^ 60 + i * 2 ^ 32 + r * 2 ^ 16 + g * 2 ^ 8 + b) := by
  have hw : AsmLine.wellFormed ⟨.setc, [i, r, g, b]⟩ = true := by
    simp [AsmLine.wellFormed, AsmLine.countOk, AsmLine.fits, AsmOp.widths, hi, hr, hg, hb]
  rw [assemble_eq_encode hw rfl, Option.map_some, encode_setc_toNat, BitVec.toNat_ofNat, BitVec.toNat_ofNat,
    BitVec.toNat_ofNat, BitVec.toNat_ofNat, Nat.mod_eq_of_lt hi, Nat.mod_eq_of_lt hr, Nat.mod_eq_of_lt hg,
    Nat.mod_eq_of_lt hb]

theorem assemble_encraw_toNat {i code : Nat} (hi : i < 65536) (hc : code < 65536) :
    (assemble ⟨.encraw, [i, code]⟩).map BitVec.toNat = some (3 * 2 ^ 60 + i * 2 ^ 32 + code) := by
  have hw : AsmLine.wellFormed ⟨.encraw, [i, code]⟩ = true := by
    simp [AsmLine.wellFormed, AsmLine.countOk, AsmLine.fits, AsmOp.widths, hi, hc]
  rw [assemble_eq_encode hw rfl, Option.map_some, encode_encraw_toNat, BitVec.toNat_ofNat, BitVec.toNat_ofNat,
    Nat.mod_eq_of_lt hi, Nat.mod_eq_of_lt hc]

/-- INIT i is SETC i, 0, 0, 0 (R85). -/
theorem assemble_init_toNat {i : Nat} (hi : i < 65536) :
    (assemble ⟨.init, [i]⟩).map BitVec.toNat = some (1 * 2 ^ 60 + i * 2 ^ 32) := by
  obtain ⟨-, -, hinit, -⟩ := launchValues
  simp [hinit i hi, encode_setc_toNat, Nat.mod_eq_of_lt hi]

/-- Settles O57: the words are those of the commands, as numbers; a refused line is one that is not well-formed. -/
theorem assemblerWords : Obligations.AssemblerWords := by
  refine ⟨fun i r g b => assemble_setc_toNat, fun i code => assemble_encraw_toNat,
    fun i hi => ⟨?_, ?_, ?_, ?_, ?_, assemble_init_toNat hi⟩, rfl, fun l hl => ?_, fun l j v n hv hn hlt => ?_⟩
  · exact assemble_idx_toNat 2 .enc hi rfl rfl rfl
  · exact assemble_idx_toNat 4 .rdcell hi rfl rfl rfl
  · exact assemble_idx_toNat 6 .frame hi rfl rfl rfl
  · exact assemble_idx_toNat 7 .endTrain hi rfl rfl rfl
  · exact assemble_idx_toNat 8 .refresh hi rfl rfl rfl
  · exact assemble_eq_none fun hw => hl (wellFormed_iff.1 hw).1
  · exact assemble_eq_none fun hw => Nat.not_lt.2 hlt ((wellFormed_iff.1 hw).2 j v n hv hn)

end Sys2Proof.Machine

namespace Sys2Proof.Machine

/-! ## ENCODE -/

/-- Settles O1: each bit lies in the segment of its channel. -/
theorem encodeBitByBit : Obligations.EncodeBitByBit := by
  refine fun r g b => ⟨fun j hj => ⟨?_, ?_, ?_⟩, encodeFrame_flag r g b⟩
  · rw [encodeFrame_getLsbD, if_pos hj]
  · rw [encodeFrame_getLsbD, if_neg (by omega), if_pos (by omega), Nat.add_sub_cancel_left]
  · rw [encodeFrame_getLsbD, if_neg (by omega), if_neg (by omega), if_pos (by omega), Nat.add_sub_cancel_left]

/-- The mask 0x1F leaves the low five bits of a channel. -/
theorem and_0x1F_getLsbD (c : Channel) (i : Nat) :
    (c.setWidth 16 &&& 0x1F).getLsbD i = (decide (i < 5) && c.getLsbD i) := by
  have hmask : (0x1F : BitVec 16) = (BitVec.allOnes 5).setWidth 16 := by decide
  rw [hmask, BitVec.getLsbD_and, BitVec.getLsbD_setWidth, BitVec.getLsbD_setWidth, BitVec.getLsbD_allOnes]
  by_cases h : i < 5
  · simp [h, Nat.lt_trans h (by decide : 5 < 16)]
  · simp [h]

/-- Settles O2, bit by bit: one case per segment and one for the flag. -/
theorem encodeAsNumber : Obligations.EncodeAsNumber := by
  intro r g b
  apply BitVec.eq_of_getLsbD_eq
  intro i hi
  have hflag : ((0x8000 : Nat) : Frame) = BitVec.twoPow 16 15 := by decide
  rw [hflag]
  simp only [encodeFrame_getLsbD, BitVec.getLsbD_or, BitVec.getLsbD_shiftLeft, and_0x1F_getLsbD,
    BitVec.getLsbD_twoPow]
  by_cases h5 : i < 5
  · have h15 : 15 ≠ i := by omega
    have h10 : i < 10 := by omega
    simp [h5, h10, h15]
  by_cases h10 : i < 10
  · have h15 : 15 ≠ i := by omega
    have hr : i - 5 < 5 := by omega
    simp [h5, h10, h15, hi, hr]
  have hr : ¬ i - 5 < 5 := by omega
  by_cases hlt : i < 15
  · have h15 : 15 ≠ i := by omega
    have hb : i - 10 < 5 := by omega
    simp [h5, h10, h15, hlt, hi, hr, hb]
  · have h15 : i = 15 := by omega
    simp [h15]

end Sys2Proof.Machine

namespace Sys2Proof.Machine

/-! ## The Frame Encoder's commands

Each command on an idle, unfaulted block and a slot there is has one next state, given once; the statements are read off
it. -/

theorem exec_setc_eq {s : State} {idx : Index} (hf : s.fault = none) (hi : s.seqCmd = .none)
    (hlt : idx.toNat < s.nCells.val) (r g b : Channel) :
    exec (.setc idx r g b) s = .next (s.cellWrite idx ⟨r, g, b, encodeFrame r g b⟩) := by
  rw [exec, execSetc, accept_idle hf hi, withIndex_in hlt]

section CreatedCell

variable {s : State} {idx : Index} {c : CellRec} (hf : s.fault = none) (hi : s.seqCmd = .none)
  (hlt : idx.toNat < s.nCells.val) (hc : s.cells.read idx.toNat = some c)
include hf hi hlt hc

theorem exec_enc_eq : exec (.enc idx) s = .next (s.cellWrite idx c.reencoded) := by
  rw [exec, execEnc, accept_idle hf hi, withCell_in hlt hc]

theorem exec_encraw_eq (code : BitVec 16) :
    exec (.encraw idx code) s = .next (s.cellWrite idx (c.withFrame (rawEncode code))) := by
  rw [exec, execEncraw, accept_idle hf hi, withCell_in hlt hc]

theorem exec_rdcell_eq : exec (.rdcell idx) s = .next { s with resp := c.respWord } := by
  rw [exec, execRdcell, accept_idle hf hi, withCell_in hlt hc]

end CreatedCell

/-! ### The commands that write a cell -/

/-- The effect and the frame of a CellWrite (R57, R61). -/
theorem State.cellWrite_effect (s : State) (idx : Index) (c : CellRec) :
    (s.cellWrite idx c).cells.read idx.toNat = some c ∧
      (∀ k, k ≠ idx.toNat → (s.cellWrite idx c).cells.read k = s.cells.read k) ∧
      s.cellWrite idx c = { s with cells := (s.cellWrite idx c).cells } :=
  ⟨Memory.read_write_same _ _ _, fun _ hk => Memory.read_write_other _ _ hk, rfl⟩

theorem State.cellWrite_cellWrite (s : State) (idx : Index) (c d : CellRec) :
    (s.cellWrite idx c).cellWrite idx d = s.cellWrite idx d := by
  simp [State.cellWrite]

/-- Settles O48: the second ENC writes the record the first one wrote. -/
theorem encIsIdempotent : Obligations.EncIsIdempotent := by
  intro s idx c hf hi hlt hc
  refine ⟨_, exec_enc_eq hf hi hlt hc, ?_⟩
  have hc' : (s.cellWrite idx c.reencoded).cells.read idx.toNat = some c.reencoded :=
    (s.cellWrite_effect idx c.reencoded).1
  rw [exec_enc_eq (s := s.cellWrite idx c.reencoded) hf hi hlt hc', State.cellWrite_cellWrite,
    CellRec.reencoded_reencoded]

/-- Settles O5: SETC is one CellWrite of the new record. -/
theorem setcWritesRecord : Obligations.SetcWritesRecord :=
  fun s idx r g b hf hi hlt => ⟨_, exec_setc_eq hf hi hlt r g b, s.cellWrite_effect idx _⟩

/-- Settles O6: ENC is one CellWrite of the re-encoded record. -/
theorem encReencodesFrame : Obligations.EncReencodesFrame :=
  fun s idx c hf hi hlt hc => ⟨_, exec_enc_eq hf hi hlt hc, s.cellWrite_effect idx c.reencoded⟩

/-- Settles O7: ENCRAW is one CellWrite of the record with its frame replaced. -/
theorem encrawWritesFrameOnly : Obligations.EncrawWritesFrameOnly :=
  fun s idx code c hf hi hlt hc =>
    ⟨_, exec_encraw_eq hf hi hlt hc code, s.cellWrite_effect idx (c.withFrame (rawEncode code))⟩

/-- Settles O49: the records written by the two blocks are built from the same channels. -/
theorem noStaleBits : Obligations.NoStaleBits := by
  intro s s' idx hf hi hlt hf' hi' hlt'
  have read_eq (c : CellRec) :
      (s.cellWrite idx c).cells.read idx.toNat = (s'.cellWrite idx c).cells.read idx.toNat :=
    (s.cellWrite_effect idx c).1.trans (s'.cellWrite_effect idx c).1.symm
  refine ⟨fun r g b => ?_, fun r g b f f' hc hc' => ?_⟩
  · exact ⟨_, _, exec_setc_eq hf hi hlt r g b, exec_setc_eq hf' hi' hlt' r g b, read_eq _⟩
  · exact ⟨_, _, exec_enc_eq hf hi hlt hc, exec_enc_eq hf' hi' hlt' hc', read_eq ⟨r, g, b, encodeFrame r g b⟩⟩

/-! ### The RESP word -/

/-- The RESP word as a number: the record's fields side by side, with a byte of zeros after the frame (R106). -/
theorem CellRec.respWord_toNat (c : CellRec) :
    c.respWord.toNat =
      c.frame.toNat * 2 ^ 32 + c.red.toNat * 2 ^ 16 + c.green.toNat * 2 ^ 8 + c.blue.toNat := by
  change BitVec.toNat (w := 16 + 16 + 8 + 8 + 8 + 8)
    ((0 : BitVec 16) ++ c.frame ++ (0 : BitVec 8) ++ c.red ++ c.green ++ c.blue) = _
  simp only [toNat_append_eq, BitVec.ofNat_eq_ofNat, BitVec.toNat_zero]
  omega

/-- The fields of the RESP word and its two reserved parts (R27, R106). -/
theorem CellRec.respWord_fields (c : CellRec) :
    bitField c.respWord 48 16 = 0#16 ∧ bitField c.respWord 32 16 = c.frame ∧ bitField c.respWord 24 8 = 0#8 ∧
      bitField c.respWord 16 8 = c.red ∧ bitField c.respWord 8 8 = c.green ∧ bitField c.respWord 0 8 = c.blue := by
  simp only [bitField_eq_iff, c.respWord_toNat, BitVec.toNat_zero]
  have := c.frame.isLt
  have := c.red.isLt
  have := c.green.isLt
  have := c.blue.isLt
  omega

/-- Settles O8: RDCELL writes the RESP word of the record and no other register. -/
theorem rdcellAnswersInResp : Obligations.RdcellAnswersInResp := by
  intro s idx c hf hi hlt hc
  obtain ⟨hzero, hframe, hzero', hred, hgreen, hblue⟩ := c.respWord_fields
  exact ⟨_, exec_rdcell_eq hf hi hlt hc, hzero, hframe, hzero', hred, hgreen, hblue, rfl⟩

/-! ### Frames -/

/-- ENCODE as a sum of its flag and its segments, each a channel modulo 32 (R101). -/
theorem encodeFrame_toNat (r g b : Channel) :
    (encodeFrame r g b).toNat =
      2 ^ 15 + b.toNat % 32 * 2 ^ 10 + r.toNat % 32 * 2 ^ 5 + g.toNat % 32 := by
  change BitVec.toNat (w := 1 + 5 + 5 + 5)
    (1#1 ++ b.extractLsb' 0 5 ++ r.extractLsb' 0 5 ++ g.extractLsb' 0 5) = _
  simp only [toNat_append_eq, BitVec.extractLsb'_toNat, Nat.shiftRight_zero, BitVec.toNat_ofNat]
  omega

/-- Settles O3: a segment is what is cut out of the sum, and the parts below it do not reach it. -/
theorem channelSegmentsModulo32 : Obligations.ChannelSegmentsModulo32 := by
  intro r g b
  simp only [BitVec.extractLsb'_toNat, Nat.shiftRight_eq_div_pow, encodeFrame_toNat]
  omega

/-- RAWENCODE as a 16-bit number: the mask keeps bits 14..0, and bit 15 is set (R102). -/
theorem rawEncode_eq_or_and (code : BitVec 16) : rawEncode code = 0x8000 ||| (code &&& 0x7FFF) := by
  have hflag : (0x8000 : BitVec 16) = BitVec.twoPow 16 15 := by decide
  have hmask : (0x7FFF : BitVec 16) = (BitVec.allOnes 15).setWidth 16 := by decide
  apply BitVec.eq_of_getLsbD_eq
  intro i hi
  rw [hflag, hmask, rawEncode_getLsbD, BitVec.getLsbD_or, BitVec.getLsbD_and, BitVec.getLsbD_twoPow,
    BitVec.getLsbD_setWidth, BitVec.getLsbD_allOnes]
  by_cases hlow : i < 15
  · have h15 : 15 ≠ i := by omega
    simp [hlow, hi, h15]
  · have h15 : i = 15 := by omega
    simp [h15]

/-- Settles O4: the bits are those of RAWENCODE's own law. -/
theorem rawEncodeBits : Obligations.RawEncodeBits := by
  refine fun code => ⟨fun j hj => ?_, rawEncode_flag code, rawEncode_eq_or_and code⟩
  rw [rawEncode_getLsbD, if_pos hj]

end Sys2Proof.Machine

namespace Sys2Proof.Machine

/-! ## The acceptance of the Strip Transmitter's commands -/

/-- Settles O9: START makes no check of its own. -/
theorem startIsAccepted : Obligations.StartIsAccepted := by
  intro s hf hi
  rw [exec, execStart, accept_idle hf hi]

/-- Settles O10: FRAME makes the checks of a cell that is there and created. -/
theorem frameIsAccepted : Obligations.FrameIsAccepted := by
  intro s idx c hf hi hlt hc
  rw [exec, execFrame, accept_idle hf hi, withCell_in hlt hc]

/-- Settles O11: END makes no check of its own. -/
theorem endIsAccepted : Obligations.EndIsAccepted := by
  intro s m hf hi
  rw [exec, execEndTrain, accept_idle hf hi]

theorem Memory.createdFrom_zero_iff {m : Memory} {n : Nat} :
    m.createdFrom 0 n = true ↔ ∀ k, k < n → (m.read k).isSome = true := by
  simp [Memory.createdFrom_iff]

/-- Settles O12: REFRESH checks the count and then each cell below it. -/
theorem refreshIsAccepted : Obligations.RefreshIsAccepted := by
  intro s n hf hi hn hcr
  rw [exec, execRefresh, accept_idle hf hi, if_neg (Nat.not_lt.2 hn), if_pos (Memory.createdFrom_zero_iff.2 hcr)]

/-- Settles O54: the host's turn with a word to issue is its issue, and an ILLEGAL word makes the checks of R130. -/
theorem stepIssuesDecodedCommand : Obligations.StepIssuesDecodedCommand := by
  refine fun s w => ⟨fun rest hh => step_cons hh, ?_, fun i hd => issue_cmd hd s, fun why hd => ?_⟩
  · rw [State.withFetchWord, Nat.mod_eq_of_lt w.isLt, BitVec.ofNat_toNat, BitVec.setWidth_eq]
    exact step_cons (s := { s with host := .issue w :: s.host }) rfl
  · rw [issue_illegal hd]
    exact ⟨fun hf => accept_faulted hf _, fun hf hb => accept_busy hf hb _, fun hf hi => accept_idle hf hi _⟩

/-! ## The phases of the sequencer -/

/-- Each micro-step is what the sequencer's step answers in its case. -/
theorem SeqMove.seqStep_eq {s t : State} (h : SeqMove s t) : seqStep s = .next t := by
  cases h with
  | sData hp | sHi hp | fHi hp | eHi hp => simp only [seqStep, hp]; rfl
  | sLoNext hp hc => simp only [seqStep, hp, phaseSLo, if_pos hc]
  | sLoFinish hp hs hc => simp only [seqStep, hp, phaseSLo, if_neg (Nat.not_lt.2 hc), if_pos hs]; rfl
  | sLoEnd hp hs hn hc =>
    have hn0 : s.seqN.toNat = 0 := by simp [hn]
    simp only [seqStep, hp, phaseSLo, if_neg (Nat.not_lt.2 hc), if_neg hs, if_pos hn0]
  | sLoFrame hp hs hn hc =>
    have hn0 : ¬ s.seqN.toNat = 0 := fun h => hn (BitVec.eq_of_toNat_eq h)
    simp only [seqStep, hp, phaseSLo, if_neg (Nat.not_lt.2 hc), if_neg hs, if_neg hn0]
  | fDataEncode c hp hr hb hc => simp only [seqStep, hp, phaseFData_encode hr hb hc]
  | fDataPlain hp hn => simp only [seqStep, hp, phaseFData_plain hn]
  | fLoBit hp hb => simp only [seqStep, hp, phaseFLo, if_pos hb]
  | fLoFinish hp hf hb => simp only [seqStep, hp, phaseFLo, if_neg (Nat.not_lt.2 (Nat.le_of_eq hb)), if_pos hf]; rfl
  | fLoCell hp hf hc hb =>
    simp only [seqStep, hp, phaseFLo, if_neg (Nat.not_lt.2 (Nat.le_of_eq hb)), if_neg hf, if_pos hc]
  | fLoEnd hp hf hc hb =>
    simp only [seqStep, hp, phaseFLo, if_neg (Nat.not_lt.2 (Nat.le_of_eq hb)), if_neg hf, if_neg (Nat.not_lt.2 hc)]
  | eDataFinish hp hm =>
    have hm0 : s.seqM.toNat = 0 := by simp [hm]
    simp only [seqStep, hp, phaseEData, if_pos hm0]; rfl
  | eDataNext hp hm =>
    have hm0 : ¬ s.seqM.toNat = 0 := fun h => hm (BitVec.eq_of_toNat_eq h)
    simp only [seqStep, hp, phaseEData, if_neg hm0]
  | eLoNext hp hc => simp only [seqStep, hp, phaseELo, if_pos hc]
  | eLoFinish hp hc => simp only [seqStep, hp, phaseELo, if_neg (Nat.not_lt.2 hc)]; rfl

/-- Settles O22: the micro-steps of the start segment, case by case. -/
theorem startPhaseSteps : Obligations.StartPhaseSteps := fun _ =>
  ⟨fun hp => (SeqMove.sData hp).seqStep_eq, fun hp => (SeqMove.sHi hp).seqStep_eq,
    fun hp hc => (SeqMove.sLoNext hp hc).seqStep_eq, fun hp hc hs => (SeqMove.sLoFinish hp hs hc).seqStep_eq,
    fun hp hc hs hn => (SeqMove.sLoEnd hp hs hn hc).seqStep_eq,
    fun hp hc hs hn => (SeqMove.sLoFrame hp hs hn hc).seqStep_eq⟩

/-- Settles O24: the micro-steps of the end segment, case by case. -/
theorem endPhaseSteps : Obligations.EndPhaseSteps := fun _ =>
  ⟨fun hp hm => (SeqMove.eDataFinish hp hm).seqStep_eq, fun hp hm => (SeqMove.eDataNext hp hm).seqStep_eq,
    fun hp => (SeqMove.eHi hp).seqStep_eq, fun hp hc => (SeqMove.eLoNext hp hc).seqStep_eq,
    fun hp hc => (SeqMove.eLoFinish hp hc).seqStep_eq⟩

/-! ### The sequencer's registers on their own

What keeps a transmission going needs no more of the invariant than this part, which holds after every acceptance,
whatever the lines stand at. -/

/-- The phase is one of the command's, the pulse counter stands within its train, and a REFRESH has its cells. -/
structure LegalRegisters (s : State) : Prop where
  phases : s.phaseLegal = true
  counts : s.seqCmd ≠ .none → s.countLegal = true
  refreshing : s.seqCmd = .refresh → s.refreshLegal = true

theorem Inv.legalRegisters {s : State} (h : Inv s) : LegalRegisters s :=
  ⟨h.phases, fun hb => h.counts ((State.busy_eq_true_iff s).2 hb), h.refreshing⟩

theorem SeqMove.legalRegisters {s t : State} (hm : SeqMove s t) (hb : s.seqCmd ≠ .none) (h : LegalRegisters s) :
    LegalRegisters t where
  phases := hm.phaseLegal hb h.phases
  counts := hm.countLegal (h.counts hb)
  refreshing ht := by
    have hk : t.seqCmd = s.seqCmd := hm.seqCmd_kept_or_none.resolve_right (by simp [ht])
    exact hm.refreshLegal (h.refreshing (hk.symm.trans ht)) (by simp [ht])

/-- What an acceptance that sets BUSY leaves in the registers: a first phase of the command. -/
theorem AcceptedAs.legalRegisters {i : Instr} {s t : State} (ha : AcceptedAs i s t) (ht : Transmits i) :
    LegalRegisters t := by
  rcases ht with rfl | ⟨idx, rfl⟩ | ⟨m, rfl⟩ | ⟨n, rfl⟩
  · obtain rfl := ha
    exact ⟨rfl, fun _ => rfl, nofun⟩
  · obtain ⟨c, -, -, rfl⟩ := ha
    exact ⟨rfl, fun _ => rfl, nofun⟩
  · obtain rfl := ha
    exact ⟨rfl, fun _ => rfl, nofun⟩
  · obtain ⟨hn, hcr, rfl⟩ := ha
    exact ⟨rfl, fun _ => rfl, fun _ => (State.refreshLegal_iff _).2 ⟨hn, hcr, rfl, nofun⟩⟩

/-- A REFRESH finds the cell it is about to encode created (R144). -/
theorem LegalRegisters.current_isSome {s : State} (h : LegalRegisters s) (he : encodesNow s) :
    (s.cellRead s.seqCell).isSome = true := by
  obtain ⟨hp, hr, -⟩ := he
  obtain ⟨-, hcr, -, hcell⟩ := s.refreshLegal_iff.1 (h.refreshing hr)
  exact Memory.createdFrom_zero_iff.1 hcr _ (hcell (by rw [hp]; rfl))

/-- The sequencer always has its next micro-step. -/
theorem LegalRegisters.exists_seqMove {s : State} (h : LegalRegisters s) : ∃ t, SeqMove s t := by
  rcases seqStep_cases s with ⟨he, hn, -⟩ | ⟨t, ht, -⟩
  · have := h.current_isSome he
    simp [hn] at this
  · exact ⟨t, .of_seqStep ht⟩

/-- Settles O23: the micro-steps of the frame segment, case by case. -/
theorem framePhaseSteps : Obligations.FramePhaseSteps := by
  intro s
  refine ⟨fun c hp hr hb hc => ?_, fun hp hr hb h => h.legalRegisters.current_isSome ⟨hp, hr, hb⟩,
    fun hp hn => (SeqMove.fDataPlain hp hn).seqStep_eq, fun hp => (SeqMove.fHi hp).seqStep_eq, fun hp hb => ?_,
    fun hp hb hf => ?_, fun hp hb hf hc => ?_, fun hp hb hf hc => ?_⟩
  · rw [(SeqMove.fDataEncode c hp hr hb hc).seqStep_eq, driveBit]
    simp only [encodeCurrent, State.cellWrite_seqBit, hb]
    rfl
  · exact (SeqMove.fLoBit hp (Nat.pos_of_ne_zero fun h => hb (BitVec.eq_of_toNat_eq h))).seqStep_eq
  · exact (SeqMove.fLoFinish hp hf (by simp [hb])).seqStep_eq
  · exact (SeqMove.fLoCell hp hf hc (by simp [hb])).seqStep_eq
  · exact (SeqMove.fLoEnd hp hf hc (by simp [hb])).seqStep_eq

/-- Settles O25: a busy good block has a micro-step, which emits one event; a silent host's turn on any other block
leaves it as it is or stops it. -/
theorem oneEventPerSequencerStep : Obligations.OneEventPerSequencerStep := by
  refine fun s h => ⟨fun hw hb hf => ?_, fun hh hn t hst => ?_⟩
  · obtain ⟨t, hm⟩ := h.legalRegisters.exists_seqMove
    obtain ⟨e, ht, -⟩ := hm.emitsOne
    exact ⟨t, e, (step_waits_busy hw hf hb).trans hm.seqStep_eq, hm.seqStep_eq, ht⟩
  · rw [step_nil hh] at hst
    by_cases hf : s.fault = none
    · have hi : s.seqCmd = .none := by_contra fun hb => hn ⟨hb, hf⟩
      rw [seqTurn_idle hf hi] at hst
      cases hst
      rfl
    · rw [seqTurn_faulted hf] at hst
      cases hst

end Sys2Proof.Machine

namespace Sys2Proof.Machine

/-! ## Traces: line levels, transmitted bits, clocking and counts

A law of appending for each view of a trace, then the view of each segment: a train of pulses, the bits of a frame, and
the frames of a list of cells. -/

/-- The level of a line that stood at `lv` before the events. -/
def levelAfter (line : Line) (lv : Level) (es : List Event) : Level :=
  es.foldl (fun lv e => if e.line = line then Level.ofBool e.value else lv) lv

@[simp] theorem levelAfter_nil (line : Line) (lv : Level) : levelAfter line lv [] = lv := rfl

@[simp] theorem levelAfter_cons (line : Line) (lv : Level) (e : Event) (es : List Event) :
    levelAfter line lv (e :: es) = levelAfter line (if e.line = line then Level.ofBool e.value else lv) es := rfl

@[simp] theorem levelAfter_append (line : Line) (lv : Level) (es es' : List Event) :
    levelAfter line lv (es ++ es') = levelAfter line (levelAfter line lv es) es' :=
  List.foldl_append ..

/-- Since launch a line goes from `Z` (R33). -/
theorem lastLevel_eq_levelAfter (line : Line) (es : List Event) : lastLevel line es = levelAfter line .z es := rfl

theorem bitsFrom_append (d : Level) (es es' : List Event) :
    bitsFrom d (es ++ es') = bitsFrom d es ++ bitsFrom (levelAfter .data d es) es' := by
  induction es generalizing d with
  | nil => rfl
  | cons e es ih =>
    obtain ⟨line, v⟩ := e
    cases line with
    | data => exact ih _
    | clk =>
      cases v with
      | false => exact ih _
      | true => exact congrArg (d :: ·) (ih _)

/-- A trace that leaves the clock low is followed by another as if it had not been (R154). -/
theorem clockScan_append_of_low {es : List Event} (h : clockScan es = some false) (es' : List Event) :
    clockScan (es ++ es') = clockScan es' := by
  rw [clockScan, List.foldl_append]
  exact congrArg (es'.foldl clockWatch) h

theorem pulseCount_append (es es' : List Event) : pulseCount (es ++ es') = pulseCount es + pulseCount es' :=
  List.countP_append

theorem dataCount_append (es es' : List Event) : dataCount (es ++ es') = dataCount es + dataCount es' :=
  List.countP_append

/-! ### A train of pulses -/

/-- The first pulse of those left of a train. -/
theorem pulseTrain_sub {m c : Nat} (h : c < m) : pulseTrain (m - c) = pulseEvents ++ pulseTrain (m - (c + 1)) := by
  have hm : m - c = m - (c + 1) + 1 := by omega
  rw [hm, pulseTrain]

@[simp] theorem levelAfter_data_pulseTrain (lv : Level) (m : Nat) : levelAfter .data lv (pulseTrain m) = lv := by
  induction m with
  | zero => rfl
  | succ m ih => exact ih

/-- A train leaves the clock low, but a train of no pulse does not touch it (R159). -/
theorem levelAfter_clk_pulseTrain (lv : Level) (m : Nat) :
    levelAfter .clk lv (pulseTrain m) = if m = 0 then lv else .lo := by
  induction m generalizing lv with
  | zero => rfl
  | succ m ih => exact (ih .lo).trans (by simp)

theorem bitsFrom_pulseTrain (d : Level) (m : Nat) : bitsFrom d (pulseTrain m) = List.replicate m d := by
  induction m with
  | zero => rfl
  | succ m ih => exact congrArg (d :: ·) ih

theorem clockScan_pulseTrain (m : Nat) : clockScan (pulseTrain m) = some false := by
  induction m with
  | zero => rfl
  | succ m ih => exact ih

theorem pulseCount_pulseTrain (m : Nat) : pulseCount (pulseTrain m) = m := by
  induction m with
  | zero => rfl
  | succ m ih =>
    simp only [pulseCount] at ih
    simp [pulseCount, pulseTrain, pulseEvents, ih]

theorem dataCount_pulseTrain (m : Nat) : dataCount (pulseTrain m) = 0 := by
  induction m with
  | zero => rfl
  | succ m ih => exact ih

/-- The start segment is an end segment of 32 pulses (R136, R138). -/
theorem traceStart_eq_traceEnd : traceStart = traceEnd startPulses := rfl

theorem bitsFrom_traceEnd (d : Level) (m : Nat) : bitsFrom d (traceEnd m) = List.replicate m .lo :=
  bitsFrom_pulseTrain .lo m

theorem clockScan_traceEnd (m : Nat) : clockScan (traceEnd m) = some false := clockScan_pulseTrain m

theorem traceEnd_length (m : Nat) : (traceEnd m).length = 1 + 2 * m := by
  rw [traceEnd, List.length_cons, pulseTrain_length, Nat.add_comm]

theorem traceEnd_counts (m : Nat) :
    pulseCount (traceEnd m) = m ∧ dataCount (traceEnd m) = 1 ∧ (traceEnd m).length = 1 + 2 * m :=
  ⟨pulseCount_pulseTrain m, (List.countP_cons_of_pos rfl).trans (congrArg (· + 1) (dataCount_pulseTrain m)),
    traceEnd_length m⟩

@[simp] theorem levelAfter_data_traceEnd (lv : Level) (m : Nat) : levelAfter .data lv (traceEnd m) = .lo :=
  levelAfter_data_pulseTrain .lo m

theorem levelAfter_clk_traceEnd (lv : Level) (m : Nat) :
    levelAfter .clk lv (traceEnd m) = if m = 0 then lv else .lo :=
  levelAfter_clk_pulseTrain lv m

@[simp] theorem levelAfter_clk_traceStart (lv : Level) : levelAfter .clk lv traceStart = .lo :=
  levelAfter_clk_pulseTrain lv startPulses

/-- Settles O37: after its first event either segment is a train of pulses. -/
theorem dataHeldLow : Obligations.DataHeldLow := fun d =>
  ⟨⟨_, rfl, fun _ => line_of_mem_pulseTrain, bitsFrom_traceEnd d startPulses⟩,
    fun m => ⟨_, rfl, fun _ => line_of_mem_pulseTrain, bitsFrom_traceEnd d m⟩⟩

/-! ### The bits of a frame -/

theorem bitsFrom_traceBits (d : Level) (f : Frame) (k : Nat) : bitsFrom d (traceBits f k) = frameBits f k := by
  induction k generalizing d with
  | zero => rfl
  | succ k ih => exact congrArg (Level.ofBool (f.getLsbD k) :: ·) (ih _)

theorem clockScan_traceBits (f : Frame) (k : Nat) : clockScan (traceBits f k) = some false := by
  induction k with
  | zero => rfl
  | succ k ih => exact ih

/-- After the last bit DATA stands at bit 0 (R159). -/
theorem levelAfter_data_traceBits (lv : Level) (f : Frame) (k : Nat) :
    levelAfter .data lv (traceBits f (k + 1)) = .ofBool (f.getLsbD 0) := by
  induction k generalizing lv with
  | zero => rfl
  | succ k ih => exact ih _

theorem levelAfter_clk_traceBits (lv : Level) (f : Frame) (k : Nat) :
    levelAfter .clk lv (traceBits f k) = if k = 0 then lv else .lo := by
  induction k generalizing lv with
  | zero => rfl
  | succ k ih => exact (ih .lo).trans (by simp)

theorem traceBits_counts (f : Frame) (k : Nat) :
    pulseCount (traceBits f k) = k ∧ dataCount (traceBits f k) = k := by
  induction k with
  | zero => exact ⟨rfl, rfl⟩
  | succ k ih =>
    simp only [pulseCount, dataCount] at ih
    simp [pulseCount, dataCount, traceBits, pulseEvents, ih]

/-- The bits of an encoded cell: the flag, then blue, red and green (R70, R74). -/
theorem frameBits_encoded (c : CellRec) :
    frameBits c.encoded 16 = Level.hi :: (channelBits c.blue ++ channelBits c.red ++ channelBits c.green) := by
  simp only [frameBits, CellRec.encoded, encodeFrame_getLsbD]
  rfl

/-! ### The frames of a list of cells -/

/-- The frames that a REFRESH sends of these cells (R139). -/
def traceFrames (cs : List CellRec) : List Event := cs.flatMap fun c => traceFrame c.encoded

@[simp] theorem traceFrames_nil : traceFrames [] = [] := rfl

@[simp] theorem traceFrames_cons (c : CellRec) (cs : List CellRec) :
    traceFrames (c :: cs) = traceFrame c.encoded ++ traceFrames cs := List.flatMap_cons

theorem traceRefresh_eq (cs : List CellRec) :
    traceRefresh cs = traceStart ++ traceFrames cs ++ traceEnd cs.length := rfl

theorem bitsFrom_traceFrames (d : Level) (cs : List CellRec) :
    bitsFrom d (traceFrames cs) =
      cs.flatMap fun c => Level.hi :: (channelBits c.blue ++ channelBits c.red ++ channelBits c.green) := by
  induction cs generalizing d with
  | nil => rfl
  | cons c cs ih =>
    rw [traceFrames_cons, bitsFrom_append, ih, traceFrame, bitsFrom_traceBits, frameBits_encoded, List.flatMap_cons]

theorem clockScan_traceFrames (cs : List CellRec) : clockScan (traceFrames cs) = some false := by
  induction cs with
  | nil => rfl
  | cons c cs ih => rw [traceFrames_cons, traceFrame, clockScan_append_of_low (clockScan_traceBits _ _), ih]

theorem levelAfter_clk_traceFrames (cs : List CellRec) : levelAfter .clk .lo (traceFrames cs) = .lo := by
  induction cs with
  | nil => rfl
  | cons c cs ih => rw [traceFrames_cons, levelAfter_append, traceFrame, levelAfter_clk_traceBits]; exact ih

theorem traceFrames_counts (cs : List CellRec) :
    pulseCount (traceFrames cs) = 16 * cs.length ∧ dataCount (traceFrames cs) = 16 * cs.length ∧
      (traceFrames cs).length = 48 * cs.length := by
  induction cs with
  | nil => exact ⟨rfl, rfl, rfl⟩
  | cons c cs ih =>
    obtain ⟨hp, hd, hl⟩ := ih
    obtain ⟨hp', hd'⟩ := traceBits_counts c.encoded 16
    rw [traceFrames_cons, traceFrame, pulseCount_append, dataCount_append, List.length_append, traceBits_length,
      List.length_cons, hp, hd, hl, hp', hd']
    omega

/-- Settles O35: the transmitted bits of the three parts of the trace, none of which depends on DATA before it. -/
theorem transmittedBitsOfRefresh : Obligations.TransmittedBitsOfRefresh := by
  intro d cs
  have hbits : bitsFrom d (traceRefresh cs) =
      List.replicate 32 Level.lo ++
      cs.flatMap (fun c => Level.hi :: (channelBits c.blue ++ channelBits c.red ++ channelBits c.green)) ++
      List.replicate cs.length Level.lo := by
    rw [traceRefresh_eq, bitsFrom_append, bitsFrom_append, traceStart_eq_traceEnd, bitsFrom_traceEnd,
      bitsFrom_traceFrames, bitsFrom_traceEnd]
    rfl
  refine ⟨hbits, ?_⟩
  have hcell (c : CellRec) :
      (Level.hi :: (channelBits c.blue ++ channelBits c.red ++ channelBits c.green)).length = 16 := rfl
  rw [hbits]
  simp only [List.length_append, List.length_replicate, List.length_flatMap, hcell, List.map_const', List.sum_replicate,
    smul_eq_mul]
  omega

/-- Settles O36: counts add up over the parts of a trace. -/
theorem traceCounts : Obligations.TraceCounts := by
  refine ⟨traceEnd_counts startPulses, fun f => ?_, traceEnd_counts, fun cs => ?_⟩
  · obtain ⟨hp, hd⟩ := traceBits_counts f 16
    exact ⟨hp, hd, traceBits_length f 16⟩
  · obtain ⟨hp, hd, hl⟩ := traceFrames_counts cs
    obtain ⟨hp0, hd0, hl0⟩ := traceEnd_counts startPulses
    obtain ⟨hp1, hd1, hl1⟩ := traceEnd_counts cs.length
    rw [traceRefresh_eq, traceStart_eq_traceEnd, pulseCount_append, pulseCount_append, dataCount_append,
      dataCount_append, List.length_append, List.length_append, hp, hd, hl, hp0, hd0, hl0, hp1, hd1, hl1]
    simp only [startPulses]
    omega

/-- What the watcher of the clock lets pass (R154). -/
theorem clockWatch_ne_none {high : Bool} {e : Event} (h : clockWatch (some high) e ≠ none) :
    (e.line = .data → high = false) ∧ (high = true → e = ⟨.clk, false⟩) := by
  obtain ⟨line, v⟩ := e
  cases high with
  | false => exact ⟨fun _ => rfl, nofun⟩
  | true =>
    cases line with
    | data => exact absurd rfl h
    | clk =>
      cases v with
      | false => exact ⟨nofun, fun _ => rfl⟩
      | true => exact absurd rfl h

/-- Settles O38: in the traces, part by part; in a step, because the trace of the next good state passes the watcher. -/
theorem dataMovesOnlyWhileClockLow : Obligations.DataMovesOnlyWhileClockLow := by
  refine ⟨⟨clockScan_traceEnd startPulses, fun f => clockScan_traceBits f 16, clockScan_traceEnd, fun cs => ?_⟩,
    fun s t h hst => ?_⟩
  · rw [traceRefresh_eq, List.append_assoc, traceStart_eq_traceEnd, clockScan_append_of_low (clockScan_traceEnd _),
      clockScan_append_of_low (clockScan_traceFrames cs), clockScan_traceEnd]
  · rcases onlySequencerDrivesLines.2 s t hst with ⟨ht, -⟩ | ⟨-, e, ht, -⟩
    · exact .inl ht
    · have hpass : clockWatch (some (s.outClk == .hi)) e ≠ none := by
        rw [← h.clocked, ← clockScan_append, ← ht, (stepKeepsInv s t h hst).clocked]
        nofun
      obtain ⟨hdata, hhigh⟩ := clockWatch_ne_none hpass
      exact .inr ⟨e, ht, fun hl => by simpa using hdata hl, fun hc => hhigh (by simp [hc])⟩

end Sys2Proof.Machine

namespace Sys2Proof.Machine

/-! ## What a transmission has yet to do

From the registers of a busy block: the events still to be emitted and cell memory at the end. A micro-step moves one
event from what is to come to TRACE and changes neither the whole trace nor the cell memory at the end, so that both are
known at acceptance. -/

/-! ### The cells still to be encoded -/

/-- The slot after its cell, if it has one, is re-encoded from its channels (R104, R144). -/
def Memory.reencode (m : Memory) (k : Nat) : Memory := (m.read k).elim m fun c => m.write k c.reencoded

/-- Cell memory after the slots `k .. k+count-1` are re-encoded in ascending order (R155). -/
def Memory.reencodeFrom (m : Memory) (k : Nat) : Nat → Memory
  | 0 => m
  | count + 1 => (m.reencode k).reencodeFrom (k + 1) count

theorem Memory.reencode_of_read {m : Memory} {k : Nat} {c : CellRec} (h : m.read k = some c) :
    m.reencode k = m.write k c.reencoded := by
  rw [Memory.reencode, h, Option.elim_some]

theorem Memory.read_reencode (m : Memory) (k j : Nat) :
    (m.reencode k).read j = if j = k then (m.read j).map CellRec.reencoded else m.read j := by
  cases h : m.read k with
  | none =>
    rw [Memory.reencode, h, Option.elim_none]
    split <;> simp_all
  | some c =>
    rw [Memory.reencode_of_read h, Memory.read_write]
    split <;> simp_all

theorem Memory.createdFrom_reencode {m : Memory} {k count : Nat} (i : Nat) (h : m.createdFrom k count = true) :
    (m.reencode i).createdFrom k count = true := by
  cases hi : m.read i with
  | none => rwa [Memory.reencode, hi, Option.elim_none]
  | some c => rw [Memory.reencode_of_read hi]; exact Memory.createdFrom_write _ _ _ h

theorem Memory.read_reencodeFrom (m : Memory) (k count j : Nat) :
    (m.reencodeFrom k count).read j =
      if k ≤ j ∧ j < k + count then (m.read j).map CellRec.reencoded else m.read j := by
  induction count generalizing m k with
  | zero =>
    rw [if_neg (by omega)]
    rfl
  | succ count ih =>
    rw [Memory.reencodeFrom, ih, Memory.read_reencode]
    by_cases hj : j = k
    · simp [hj]
    · simp only [if_neg hj]
      exact if_congr (by omega) rfl rfl

theorem Memory.slice_congr {m m' : Memory} {k : Nat} (count : Nat) (h : ∀ j, k ≤ j → m.read j = m'.read j) :
    m.slice k count = m'.slice k count := by
  induction count generalizing k with
  | zero => rfl
  | succ count ih => rw [Memory.slice, Memory.slice, h k (Nat.le_refl k), ih fun j hj => h j (by omega)]

/-- Re-encoding a cell changes none of the cells after it. -/
theorem Memory.slice_reencode (m : Memory) (k count : Nat) :
    (m.reencode k).slice (k + 1) count = m.slice (k + 1) count :=
  Memory.slice_congr count fun j hj => by rw [Memory.read_reencode, if_neg (by omega)]

theorem Memory.slice_of_read {m : Memory} {k : Nat} {c : CellRec} (h : m.read k = some c) (count : Nat) :
    m.slice k (count + 1) = c :: m.slice (k + 1) count := by
  rw [Memory.slice, h]
  rfl

/-- The first slot whose cell a REFRESH has yet to encode; the slots from it up to SEQ_N are to come (R143, R144,
R146). -/
def State.nextCell (s : State) : Nat :=
  match s.seqPhase with
  | .sData | .sHi | .sLo => 0
  | .fData => if s.seqBit = 15 then s.seqCell.toNat else s.seqCell.toNat + 1
  | .fHi | .fLo => s.seqCell.toNat + 1
  | .eData | .eHi | .eLo => s.seqN.toNat

/-- Cell memory when the command in progress is over. -/
def State.cellsAtEnd (s : State) : Memory :=
  if s.seqCmd = .refresh then s.cells.reencodeFrom s.nextCell (s.seqN.toNat - s.nextCell) else s.cells

/-- What a REFRESH sends from the next cell on, up to and with its end segment. -/
def State.framesLeft (s : State) : List Event :=
  if s.seqCmd = .refresh then
    traceFrames (s.cells.slice s.nextCell (s.seqN.toNat - s.nextCell)) ++ traceEnd s.seqM.toNat
  else []

/-- The events the command in progress has yet to emit. -/
def State.traceLeft (s : State) : List Event :=
  if s.seqCmd = .none then [] else
  match s.seqPhase with
  | .sData => traceStart ++ s.framesLeft
  | .sHi => pulseTrain (startPulses - s.seqCnt.toNat) ++ s.framesLeft
  | .sLo => ⟨.clk, false⟩ :: pulseTrain (startPulses - (s.seqCnt.toNat + 1)) ++ s.framesLeft
  | .fData => (if encodesNow s then [] else traceBits s.seqFr (s.seqBit.toNat + 1)) ++ s.framesLeft
  | .fHi => pulseEvents ++ traceBits s.seqFr s.seqBit.toNat ++ s.framesLeft
  | .fLo => ⟨.clk, false⟩ :: traceBits s.seqFr s.seqBit.toNat ++ s.framesLeft
  | .eData => traceEnd s.seqM.toNat
  | .eHi => pulseTrain (s.seqM.toNat - s.seqCnt.toNat)
  | .eLo => ⟨.clk, false⟩ :: pulseTrain (s.seqM.toNat - (s.seqCnt.toNat + 1))

/-- Between two encode steps the next cell stays the next cell. -/
theorem SeqMove.nextCell_kept {s t : State} (hm : SeqMove s t) (h : s.refreshLegal = true)
    (hr : s.seqCmd = .refresh) (hn : ¬ encodesNow s) : t.nextCell = s.nextCell := by
  obtain ⟨-, -, -, hcell⟩ := s.refreshLegal_iff.1 h
  cases hm with
  | sData hp | sHi hp | sLoNext hp | fHi hp | eDataFinish hp | eDataNext hp | eHi hp | eLoNext hp | eLoFinish hp =>
    simp [State.nextCell, hp]
  | sLoFinish hp hs | fLoFinish hp hs => simp [hr] at hs
  | sLoEnd hp hs hn => simp [State.nextCell, hp, hn]
  | sLoFrame hp => simp [State.nextCell, hp]
  | fDataEncode c hp hr hb => exact absurd ⟨hp, hr, hb⟩ hn
  | fDataPlain hp hn =>
    have hb : s.seqBit ≠ 15 := fun hb => hn ⟨hr, hb⟩
    simp only [State.nextCell, hp, if_neg hb]
    rfl
  | fLoBit hp hb =>
    have hb : s.seqBit - 1 ≠ 15 := by bv_omega
    simp only [State.nextCell, hp, if_neg hb]
    rfl
  | fLoCell hp hf hc =>
    have hsucc : (s.seqCell + 1).toNat = s.seqCell.toNat + 1 := by bv_omega
    simp only [State.nextCell, hp]
    exact hsucc
  | fLoEnd hp hf hc =>
    have := hcell (by rw [hp]; rfl)
    simp only [State.nextCell, hp, State.emit_clk_seqN]
    omega

/-- The encode step re-encodes the next cell, loads its frame, and makes the slot after it the next cell (R144). -/
theorem SeqMove.encode_step {s t : State} (hm : SeqMove s t) (h : s.refreshLegal = true) (he : encodesNow s) :
    s.seqN.toNat - s.nextCell = s.seqN.toNat - (s.nextCell + 1) + 1 ∧ t.nextCell = s.nextCell + 1 ∧
      t.seqCmd = .refresh ∧
      t.cells = s.cells.reencode s.nextCell ∧ ∃ c, s.cells.read s.nextCell = some c ∧ t.seqFr = c.encoded := by
  obtain ⟨hp, hr, hb⟩ := he
  obtain ⟨-, -, -, hcell⟩ := s.refreshLegal_iff.1 h
  have hnext : s.nextCell = s.seqCell.toNat := by simp [State.nextCell, hp, hb]
  rw [hnext]
  have hlt := hcell (by rw [hp]; rfl)
  cases hm with
  | fDataEncode c _ _ _ hc => exact ⟨by omega, rfl, hr, (Memory.reencode_of_read hc).symm, c, hc, rfl⟩
  | fDataPlain _ hn => exact absurd ⟨hr, hb⟩ hn
  | _ hp' => simp [hp] at hp'

/-- Only the encode step writes cell memory (R144). -/
theorem SeqMove.cells_kept {s t : State} (hm : SeqMove s t) (hn : ¬ encodesNow s) : t.cells = s.cells := by
  cases hm with
  | fDataEncode c hp hr hb => exact absurd ⟨hp, hr, hb⟩ hn
  | _ => rfl

/-- A REFRESH that finishes has encoded all its cells. -/
theorem SeqMove.nextCell_of_finish {s t : State} (hm : SeqMove s t) (hr : s.seqCmd = .refresh) (hi : t.seqCmd = .none) :
    s.nextCell = s.seqN.toNat := by
  cases hm with
  | sLoFinish hp hs | fLoFinish hp hs => simp [hr] at hs
  | eDataFinish hp | eLoFinish hp => simp only [State.nextCell, hp]
  | _ => simp [hr, driveBit, encodeCurrent] at hi

/-- A micro-step does not change what cell memory will be at the end. -/
theorem SeqMove.cellsAtEnd_kept {s t : State} (hm : SeqMove s t) (h : LegalRegisters s) :
    t.cellsAtEnd = s.cellsAtEnd := by
  by_cases hr : s.seqCmd = .refresh
  · obtain ⟨-, -, hsn, -⟩ := hm.kept
    have hl := h.refreshing hr
    by_cases he : encodesNow s
    · obtain ⟨hcount, hnext, hk, hcells, -⟩ := hm.encode_step hl he
      rw [State.cellsAtEnd, State.cellsAtEnd, if_pos hk, if_pos hr, hsn, hnext, hcells, hcount, Memory.reencodeFrom]
    · rcases hm.seqCmd_kept_or_none with hk | hi
      · rw [State.cellsAtEnd, State.cellsAtEnd, hk, hsn, hm.cells_kept he, hm.nextCell_kept hl hr he]
      · rw [State.cellsAtEnd, State.cellsAtEnd, if_pos hr, hi, if_neg nofun, hm.nextCell_of_finish hr hi, Nat.sub_self,
          hm.cells_kept he, Memory.reencodeFrom]
  · have ht : t.seqCmd ≠ .refresh := by
      rcases hm.seqCmd_kept_or_none with hk | hi
      · rwa [hk]
      · rw [hi]; nofun
    rw [State.cellsAtEnd, State.cellsAtEnd, if_neg hr, if_neg ht, hm.cells_kept fun he => hr he.2.1]

theorem SeqMove.framesLeft_kept {s t : State} (hm : SeqMove s t) (h : LegalRegisters s) (hn : ¬ encodesNow s)
    (hc : t.seqCmd = s.seqCmd) : t.framesLeft = s.framesLeft := by
  obtain ⟨-, -, hsn, hsm⟩ := hm.kept
  by_cases hr : s.seqCmd = .refresh
  · rw [State.framesLeft, State.framesLeft, hc, hsn, hsm, hm.cells_kept hn, hm.nextCell_kept (h.refreshing hr) hr hn]
  · rw [State.framesLeft, State.framesLeft, hc, if_neg hr, if_neg hr]

/-- The encode step takes the frame of its cell off the frames to come. -/
theorem SeqMove.framesLeft_encode {s t : State} (hm : SeqMove s t) (h : LegalRegisters s) (he : encodesNow s) :
    s.framesLeft = traceFrame t.seqFr ++ t.framesLeft := by
  have hr : s.seqCmd = .refresh := he.2.1
  obtain ⟨-, -, hsn, hsm⟩ := hm.kept
  obtain ⟨hcount, hnext, hk, hcells, c, hc, hfr⟩ := hm.encode_step (h.refreshing hr) he
  rw [State.framesLeft, State.framesLeft, if_pos hk, if_pos hr, hsn, hsm, hnext, hcells, hcount,
    Memory.slice_of_read hc, Memory.slice_reencode, hfr, traceFrames_cons, List.append_assoc]

theorem LegalRegisters.start_count {s : State} (h : LegalRegisters s) (hb : s.seqCmd ≠ .none)
    (hp : s.seqPhase = .sHi ∨ s.seqPhase = .sLo) : s.seqCnt.toNat < startPulses := by
  have := h.counts hb
  rcases hp with hp | hp <;> simpa [State.countLegal, hp] using this

theorem LegalRegisters.end_count {s : State} (h : LegalRegisters s) (hb : s.seqCmd ≠ .none)
    (hp : s.seqPhase = .eHi ∨ s.seqPhase = .eLo) : s.seqCnt.toNat < s.seqM.toNat := by
  have := h.counts hb
  rcases hp with hp | hp <;> simpa [State.countLegal, hp] using this

/-- The event a micro-step emits is the first of those that were to come. -/
theorem SeqMove.trace_append_traceLeft {s t : State} (hm : SeqMove s t) (hb : s.seqCmd ≠ .none)
    (h : LegalRegisters s) : t.trace ++ t.traceLeft = s.trace ++ s.traceLeft := by
  have kept := hm.framesLeft_kept h
  have encode := hm.framesLeft_encode h
  cases hm with
  | sData hp =>
    simpa [State.traceLeft, hb, hp, traceStart] using kept (by simp [encodesNow, hp]) rfl
  | sHi hp =>
    have hcnt := pulseTrain_sub (h.start_count hb (.inl hp))
    simpa [State.traceLeft, hb, hp, hcnt, pulseEvents] using kept (by simp [encodesNow, hp]) rfl
  | sLoNext hp hc =>
    have hcnt : (s.seqCnt.toNat + 1) % 65536 = s.seqCnt.toNat + 1 := Nat.mod_eq_of_lt (hc.trans (by decide))
    simpa [State.traceLeft, hb, hp, hcnt] using kept (by simp [encodesNow, hp]) rfl
  | sLoFinish hp hs hc =>
    simp [State.traceLeft, hp, hs, Nat.sub_eq_zero_of_le hc, State.framesLeft, pulseTrain]
  | sLoEnd hp hs hn hc =>
    have hr := State.refresh_of_sLo h.phases hb hp hs
    simp [State.traceLeft, hr, hp, Nat.sub_eq_zero_of_le hc, hn, State.framesLeft, pulseTrain, Memory.slice]
  | sLoFrame hp hs hn hc =>
    have hr := State.refresh_of_sLo h.phases hb hp hs
    simpa [State.traceLeft, hr, hp, Nat.sub_eq_zero_of_le hc, pulseTrain, encodesNow] using
      kept (by simp [encodesNow, hp]) rfl
  | fDataEncode c hp hr h15 hc =>
    have he : encodesNow s := ⟨hp, hr, h15⟩
    have hframe := encode he
    simp [State.traceLeft, hp, he, hframe, driveBit, encodeCurrent, traceFrame, traceBits]
  | fDataPlain hp hn =>
    have hn : ¬ encodesNow s := fun he => hn he.2
    simpa [State.traceLeft, hb, hp, hn, driveBit, traceBits] using kept hn rfl
  | fHi hp =>
    simpa [State.traceLeft, hb, hp, pulseEvents] using kept (by simp [encodesNow, hp]) rfl
  | fLoBit hp h0 =>
    have h15 : s.seqBit - 1#4 ≠ 15#4 := by bv_omega
    have hbit : (15 + s.seqBit.toNat) % 16 + 1 = s.seqBit.toNat := by omega
    simpa [State.traceLeft, hb, hp, encodesNow, h15, hbit] using kept (by simp [encodesNow, hp]) rfl
  | fLoFinish hp hf h0 =>
    simp [State.traceLeft, hp, h0, hf, State.framesLeft, traceBits]
  | fLoCell hp hf hc h0 =>
    have hr := State.refresh_of_fLo h.phases hb hp hf
    simpa [State.traceLeft, hr, hp, h0, traceBits, encodesNow] using kept (by simp [encodesNow, hp]) rfl
  | fLoEnd hp hf hc h0 =>
    have hr := State.refresh_of_fLo h.phases hb hp hf
    simp [State.traceLeft, hr, hp, h0, traceBits, State.framesLeft, State.nextCell, Nat.sub_eq_zero_of_le hc,
      Memory.slice]
  | eDataFinish hp hm =>
    simp [State.traceLeft, hb, hp, hm, traceEnd, pulseTrain]
  | eDataNext hp hm =>
    simp [State.traceLeft, hb, hp, traceEnd]
  | eHi hp =>
    have hcnt := pulseTrain_sub (h.end_count hb (.inl hp))
    simp [State.traceLeft, hb, hp, hcnt, pulseEvents]
  | eLoNext hp hc =>
    have hcnt : (s.seqCnt.toNat + 1) % 65536 = s.seqCnt.toNat + 1 := Nat.mod_eq_of_lt (hc.trans s.seqM.isLt)
    simp [State.traceLeft, hb, hp, hcnt]
  | eLoFinish hp hc =>
    simp [State.traceLeft, hb, hp, Nat.sub_eq_zero_of_le hc, pulseTrain]

/-! ### The number of steps left -/

theorem LegalRegisters.framesLeft_length {s : State} (h : LegalRegisters s) (hr : s.seqCmd = .refresh) :
    s.framesLeft.length = 48 * (s.seqN.toNat - s.nextCell) + endSteps s.seqM.toNat := by
  obtain ⟨-, hcr, -, -⟩ := s.refreshLegal_iff.1 (h.refreshing hr)
  have hslice : (s.cells.slice s.nextCell (s.seqN.toNat - s.nextCell)).length = s.seqN.toNat - s.nextCell := by
    refine Memory.slice_length _ _ _ ((Memory.createdFrom_iff _ _ _).2 fun j _ hj => ?_)
    exact Memory.createdFrom_zero_iff.1 hcr j (by omega)
  obtain ⟨-, -, hframes⟩ := traceFrames_counts (s.cells.slice s.nextCell (s.seqN.toNat - s.nextCell))
  rw [State.framesLeft, if_pos hr, List.length_append, hframes, hslice, traceEnd_length, endSteps]

theorem LegalRegisters.framesLeft_length_of_start {s : State} (h : LegalRegisters s) (hb : s.seqCmd ≠ .none)
    (hp : s.seqPhase.segment = .start) : s.framesLeft.length = s.stepsAfterStart := by
  by_cases hs : s.seqCmd = .start
  · simp [State.framesLeft, State.stepsAfterStart, hs]
  · have hr : s.seqCmd = .refresh := by simpa [hp, hb, hs] using s.phaseLegal_cases h.phases
    have hnext : s.nextCell = 0 := by
      unfold State.nextCell
      cases hp' : s.seqPhase <;> simp_all [SeqPhase.segment]
    rw [h.framesLeft_length hr, State.stepsAfterStart, if_neg hs, hnext, Nat.sub_zero]

theorem LegalRegisters.framesLeft_length_of_frame {s : State} (h : LegalRegisters s) (hb : s.seqCmd ≠ .none)
    (hp : s.seqPhase.segment = .frame) :
    s.framesLeft.length = (if encodesNow s then 48 else 0) + s.stepsAfterFrame := by
  by_cases hf : s.seqCmd = .frame
  · simp [State.framesLeft, State.stepsAfterFrame, encodesNow, hf]
  · have hr : s.seqCmd = .refresh := by simpa [hp, hb, hf] using s.phaseLegal_cases h.phases
    obtain ⟨-, -, -, hcell⟩ := s.refreshLegal_iff.1 (h.refreshing hr)
    have hlt := hcell hp
    rw [h.framesLeft_length hr, State.stepsAfterFrame, if_neg hf]
    by_cases he : encodesNow s
    · have hnext : s.nextCell = s.seqCell.toNat := by simp [State.nextCell, he.1, he.2.2]
      rw [if_pos he, hnext]
      omega
    · have hnext : s.nextCell = s.seqCell.toNat + 1 := by
        unfold State.nextCell
        cases hp' : s.seqPhase <;> simp_all [SeqPhase.segment, encodesNow]
      rw [if_neg he, hnext]
      omega

/-- The steps left are the events left: each micro-step emits one (R140, R151). -/
theorem LegalRegisters.stepsLeft_eq_length {s : State} (h : LegalRegisters s) :
    s.stepsLeft = s.traceLeft.length := by
  by_cases hb : s.seqCmd = .none
  · rw [State.stepsLeft, State.traceLeft, if_pos hb, if_pos hb, List.length_nil]
  have hseg (hp : s.seqPhase.segment = .frame) (he : ¬ encodesNow s) :
      s.framesLeft.length = s.stepsAfterFrame := by
    rw [h.framesLeft_length_of_frame hb hp, if_neg he, Nat.zero_add]
  cases hp : s.seqPhase with
  | sData =>
    have hframes := h.framesLeft_length_of_start hb (by rw [hp]; rfl)
    have hstart : traceStart.length = 1 + 2 * startPulses := traceEnd_length startPulses
    simp only [State.stepsLeft, State.traceLeft, if_neg hb, hp, List.length_append, hframes, hstart]
  | sHi =>
    have hframes := h.framesLeft_length_of_start hb (by rw [hp]; rfl)
    simp only [State.stepsLeft, State.traceLeft, if_neg hb, hp, List.length_append, hframes, pulseTrain_length]
  | sLo =>
    have hcnt := h.start_count hb (.inr hp)
    have hframes := h.framesLeft_length_of_start hb (by rw [hp]; rfl)
    simp only [State.stepsLeft, State.traceLeft, if_neg hb, hp, List.length_append, List.length_cons, hframes,
      pulseTrain_length]
    omega
  | fData =>
    have hframes := h.framesLeft_length_of_frame hb (by rw [hp]; rfl)
    simp only [State.stepsLeft, State.traceLeft, if_neg hb, hp, List.length_append, hframes]
    by_cases he : encodesNow s
    · have hbit : s.seqBit.toNat = 15 := congrArg BitVec.toNat he.2.2
      rw [if_pos he, if_pos he, hbit, List.length_nil, Nat.zero_add]
    · rw [if_neg he, if_neg he, traceBits_length, Nat.zero_add]
  | fHi =>
    have hframes := hseg (by rw [hp]; rfl) (by simp [encodesNow, hp])
    simp only [State.stepsLeft, State.traceLeft, if_neg hb, hp, List.length_append, hframes, traceBits_length,
      pulseEvents, List.length_cons, List.length_nil]
    omega
  | fLo =>
    have hframes := hseg (by rw [hp]; rfl) (by simp [encodesNow, hp])
    simp only [State.stepsLeft, State.traceLeft, if_neg hb, hp, List.length_append, List.length_cons, hframes,
      traceBits_length]
    omega
  | eData =>
    simp only [State.stepsLeft, State.traceLeft, if_neg hb, hp, traceEnd_length, endSteps]
  | eHi =>
    simp only [State.stepsLeft, State.traceLeft, if_neg hb, hp, pulseTrain_length]
  | eLo =>
    have hcnt := h.end_count hb (.inr hp)
    simp only [State.stepsLeft, State.traceLeft, if_neg hb, hp, List.length_cons, pulseTrain_length]
    omega

/-- Each micro-step is one of the steps left (R151). -/
theorem SeqMove.stepsLeft_succ {s t : State} (hm : SeqMove s t) (hb : s.seqCmd ≠ .none) (h : LegalRegisters s) :
    t.stepsLeft + 1 = s.stepsLeft := by
  have htrace := hm.trace_append_traceLeft hb h
  obtain ⟨e, he, -⟩ := hm.emitsOne
  rw [he, List.append_assoc, List.append_cancel_left_eq] at htrace
  rw [h.stepsLeft_eq_length, (hm.legalRegisters hb h).stepsLeft_eq_length, ← htrace]
  rfl

theorem State.stepsLeft_of_idle {s : State} (hi : s.seqCmd = .none) : s.stepsLeft = 0 := if_pos hi

theorem LegalRegisters.stepsLeft_eq_zero_iff {s : State} (h : LegalRegisters s) :
    s.stepsLeft = 0 ↔ s.seqCmd = .none := by
  refine ⟨fun h0 => by_contra fun hb => ?_, State.stepsLeft_of_idle⟩
  obtain ⟨t, hm⟩ := h.exists_seqMove
  exact Nat.succ_ne_zero _ ((hm.stepsLeft_succ hb h).trans h0)

/-- The steps left right after an acceptance that sets BUSY (R151). -/
def acceptedSteps : Instr → Nat
  | .start => 65
  | .frame _ => 48
  | .endTrain m => 1 + 2 * m.toNat
  | .refresh n => 66 + 50 * n.toNat
  | .setc .. | .enc _ | .encraw .. | .rdcell _ => 0

theorem AcceptedAs.stepsLeft {i : Instr} {s t : State} (ha : AcceptedAs i s t) (ht : Transmits i) :
    t.stepsLeft = acceptedSteps i := by
  rcases ht with rfl | ⟨idx, rfl⟩ | ⟨m, rfl⟩ | ⟨n, rfl⟩
  · obtain rfl := ha
    rfl
  · obtain ⟨c, -, -, rfl⟩ := ha
    rfl
  · obtain rfl := ha
    rfl
  · obtain ⟨-, -, rfl⟩ := ha
    simp only [State.stepsLeft, State.stepsAfterStart, endSteps, startPulses, acceptedSteps, reduceCtorEq, if_false]
    omega

/-- A command that answers an unfaulted state was accepted. -/
theorem AcceptedAs.of_exec {i : Instr} {s t : State} (hx : exec i s = .next t) (hf : s.fault = none)
    (ht : t.fault = none) : AcceptedAs i s t := by
  rcases exec_cases i s with ⟨hne, -⟩ | ⟨-, code, -, -, hr⟩ | ⟨-, -, u, ha, hu⟩
  · exact absurd hf hne
  · rw [hr] at hx
    cases hx
    cases ht
  · rw [hu] at hx
    cases hx
    exact ha

/-- Settles O33: a micro-step takes one event off those to come, which are as many as the steps left. -/
theorem stepsLeftCountDown : Obligations.StepsLeftCountDown := by
  refine ⟨fun s h hb => ?_, fun s h => h.legalRegisters.stepsLeft_eq_zero_iff, fun s t hf hi => ?_⟩
  · obtain ⟨t, hm⟩ := h.legalRegisters.exists_seqMove
    exact ⟨t, hm.seqStep_eq, hm.stepsLeft_succ hb h.legalRegisters⟩
  · have accepted {i : Instr} (hx : exec i s = .next t) (htf : t.fault = none) (ht : Transmits i) :
        t.stepsLeft = acceptedSteps i := (AcceptedAs.of_exec hx hf htf).stepsLeft ht
    refine ⟨fun hx => ?_, fun idx hx htf => accepted hx htf (.inr (.inl ⟨idx, rfl⟩)), fun m hx => ?_,
      fun n hx htf => accepted hx htf (.inr (.inr (.inr ⟨n, rfl⟩)))⟩
    · rw [startIsAccepted s hf hi] at hx
      cases hx
      rfl
    · rw [endIsAccepted s m hf hi] at hx
      cases hx
      rfl

end Sys2Proof.Machine

namespace Sys2Proof.Machine

/-! ## Whole transmissions -/

/-- No micro-step raises a fault or makes a host move. -/
theorem SeqMove.host_side_kept {s t : State} (hm : SeqMove s t) :
    t.fault = s.fault ∧ t.host = s.host ∧ t.reads = s.reads := by
  cases hm <;> exact ⟨rfl, rfl, rfl⟩

/-- Everything of a state that is known of the end of the transmission in progress: all but the SEQ_ registers. -/
structure Ending where
  nCells : Fin 65536
  cells : Memory
  fault : Option FaultCode
  resp : BitVec 64
  outData : Level
  outClk : Level
  trace : List Event
  host : List HostMove
  reads : List HostRead

/-- The end of the transmission in progress, when the host waits. -/
def State.ending (s : State) : Ending where
  nCells := s.nCells
  cells := s.cellsAtEnd
  fault := s.fault
  resp := s.resp
  outData := levelAfter .data s.outData s.traceLeft
  outClk := levelAfter .clk s.outClk s.traceLeft
  trace := s.trace ++ s.traceLeft
  host := s.host
  reads := s.reads

theorem State.traceLeft_of_idle {s : State} (hi : s.seqCmd = .none) : s.traceLeft = [] := if_pos hi

theorem State.cellsAtEnd_of_idle {s : State} (hi : s.seqCmd = .none) : s.cellsAtEnd = s.cells :=
  if_neg (by simp [hi])

/-- An idle block is at the end. -/
theorem State.ending_of_idle {s : State} (hi : s.seqCmd = .none) :
    s.ending = ⟨s.nCells, s.cells, s.fault, s.resp, s.outData, s.outClk, s.trace, s.host, s.reads⟩ := by
  rw [State.ending, State.traceLeft_of_idle hi, State.cellsAtEnd_of_idle hi, List.append_nil]
  rfl

/-- An event on a line sets the level from which the later ones go on. -/
theorem EmitsOne.levels_kept {s t : State} (h : EmitsOne s t) {es es' : List Event}
    (heq : t.trace ++ es' = s.trace ++ es) :
    levelAfter .data t.outData es' = levelAfter .data s.outData es ∧
      levelAfter .clk t.outClk es' = levelAfter .clk s.outClk es := by
  obtain ⟨e, ht, hdata, hclk⟩ := h
  rw [ht, List.append_assoc, List.append_cancel_left_eq] at heq
  obtain ⟨line, v⟩ := e
  cases line with
  | data =>
    obtain ⟨hd, hc⟩ := hdata rfl
    rw [← heq, hd, hc]
    exact ⟨rfl, rfl⟩
  | clk =>
    obtain ⟨hc, hd⟩ := hclk rfl
    rw [← heq, hd, hc]
    exact ⟨rfl, rfl⟩

/-- No micro-step changes the end. -/
theorem SeqMove.ending_kept {s t : State} (hm : SeqMove s t) (hb : s.seqCmd ≠ .none) (h : LegalRegisters s) :
    t.ending = s.ending := by
  obtain ⟨hn, hresp, -, -⟩ := hm.kept
  obtain ⟨hf, hh, hrd⟩ := hm.host_side_kept
  have htrace := hm.trace_append_traceLeft hb h
  obtain ⟨hdata, hclk⟩ := hm.emitsOne.levels_kept htrace
  rw [State.ending, State.ending, hn, hm.cellsAtEnd_kept h, hf, hresp, hdata, hclk, htrace, hh, hrd]

theorem TransmitsIn.of_idle {s : State} (hi : s.seqCmd = .none) : TransmitsIn s 0 s :=
  ⟨rfl, (State.busy_eq_false_iff s).2 hi, nofun⟩

theorem TransmitsIn.succ {s t u : State} {n : Nat} (hst : step s = .next t) (hb : s.seqCmd ≠ .none)
    (h : TransmitsIn t n u) : TransmitsIn s (n + 1) u := by
  obtain ⟨hrun, hidle, hbusy⟩ := h
  refine ⟨(runSteps_succ n hst).trans hrun, hidle, fun j hj => ?_⟩
  cases j with
  | zero => exact ⟨s, rfl, (State.busy_eq_true_iff s).2 hb⟩
  | succ j => rw [runSteps_succ j hst]; exact hbusy j (Nat.lt_of_succ_lt_succ hj)

/-- While the host waits, a transmission runs through its steps left to its end. -/
theorem LegalRegisters.transmitsIn {s : State} (h : LegalRegisters s) (hf : s.fault = none) (hw : HostWaits s) :
    ∃ u, TransmitsIn s s.stepsLeft u ∧ u.seqCmd = .none ∧ u.ending = s.ending := by
  generalize hn : s.stepsLeft = n
  induction n generalizing s with
  | zero =>
    have hi := h.stepsLeft_eq_zero_iff.1 hn
    exact ⟨s, .of_idle hi, hi, rfl⟩
  | succ n ih =>
    have hb : s.seqCmd ≠ .none := fun hi => by simp [State.stepsLeft_of_idle hi] at hn
    obtain ⟨t, hm⟩ := h.exists_seqMove
    obtain ⟨hfault, hhost, -⟩ := hm.host_side_kept
    have hleft : t.stepsLeft = n := Nat.succ.inj ((hm.stepsLeft_succ hb h).trans hn)
    obtain ⟨u, hu, hi, he⟩ := ih (hm.legalRegisters hb h) (hfault.trans hf) (hw.congr hhost) hleft
    exact ⟨u, hu.succ ((step_waits_busy hw hf hb).trans hm.seqStep_eq) hb, hi, he.trans (hm.ending_kept hb h)⟩

theorem State.eq_of_ending {u : State} (hi : u.seqCmd = .none) {n m f r d c tr hs rd}
    (h : u.ending = ⟨n, m, f, r, d, c, tr, hs, rd⟩) :
    u.nCells = n ∧ u.cells = m ∧ u.fault = f ∧ u.resp = r ∧ u.outData = d ∧ u.outClk = c ∧ u.trace = tr ∧
      u.host = hs ∧ u.reads = rd := by
  rw [State.ending_of_idle hi] at h
  exact Ending.mk.inj h

/-- From the acceptance of a command that sets BUSY to its end, while the host waits: its steps, and the block after
them as the state right after the acceptance tells. -/
theorem transmitsIn_of_exec {i : Instr} {s t : State} (hx : exec i s = .next t) (ht : Transmits i)
    (hf : s.fault = none) (htf : t.fault = none) (hw : HostWaits t) {n m f r d c tr hs rd}
    (he : AcceptedAs i s t → t.ending = ⟨n, m, f, r, d, c, tr, hs, rd⟩) :
    ∃ u, TransmitsIn t (acceptedSteps i) u ∧ u.seqCmd = .none ∧
      u.nCells = n ∧ u.cells = m ∧ u.fault = f ∧ u.resp = r ∧ u.outData = d ∧ u.outClk = c ∧ u.trace = tr ∧
      u.host = hs ∧ u.reads = rd := by
  have ha := AcceptedAs.of_exec hx hf htf
  obtain ⟨u, hu, hi, hue⟩ := (ha.legalRegisters ht).transmitsIn htf hw
  rw [ha.stepsLeft ht] at hu
  exact ⟨u, hu, hi, u.eq_of_ending hi (hue.trans (he ha))⟩

/-! ### The end of each command's transmission -/

theorem AcceptedAs.ending_start {s t : State} (ha : AcceptedAs .start s t) :
    t.ending = ⟨s.nCells, s.cells, s.fault, s.resp, .lo, .lo, s.trace ++ traceStart, s.host, s.reads⟩ := by
  obtain rfl := ha
  rfl

theorem AcceptedAs.ending_endTrain {m : Index} {s t : State} (ha : AcceptedAs (.endTrain m) s t) :
    t.ending = ⟨s.nCells, s.cells, s.fault, s.resp, .lo, if m = 0 then s.outClk else .lo, s.trace ++ traceEnd m.toNat,
      s.host, s.reads⟩ := by
  obtain rfl := ha
  have hm : m.toNat = 0 ↔ m = 0 := by simp [← BitVec.toNat_inj]
  simp [State.ending, State.cellsAtEnd, State.traceLeft, levelAfter_clk_traceEnd, hm]

theorem AcceptedAs.ending_frame {idx : Index} {c : CellRec} {s t : State} (ha : AcceptedAs (.frame idx) s t)
    (hc : s.cells.read idx.toNat = some c) :
    t.ending = ⟨s.nCells, s.cells, s.fault, s.resp, .ofBool (c.frame.getLsbD 0), .lo, s.trace ++ traceFrame c.frame,
      s.host, s.reads⟩ := by
  obtain ⟨c', -, hc', rfl⟩ := ha
  obtain rfl : c' = c := Option.some.inj (hc'.symm.trans hc)
  have hd := levelAfter_data_traceBits s.outData c'.frame 15
  have hclk := levelAfter_clk_traceBits s.outClk c'.frame 16
  simp [State.ending, State.cellsAtEnd, State.traceLeft, State.framesLeft, hd, hclk, encodesNow, traceFrame]

theorem AcceptedAs.ending_refresh {n : Index} {s t : State} (ha : AcceptedAs (.refresh n) s t) :
    t.ending = ⟨s.nCells, s.cells.reencodeFrom 0 n.toNat, s.fault, s.resp, .lo, .lo,
      s.trace ++ traceRefresh (s.cells.slice 0 n.toNat), s.host, s.reads⟩ := by
  obtain ⟨-, hcr, rfl⟩ := ha
  have hlen := Memory.slice_length _ _ _ hcr
  simp [State.ending, State.cellsAtEnd, State.traceLeft, State.framesLeft, State.nextCell, levelAfter_clk_traceFrames,
    levelAfter_clk_traceEnd, traceRefresh_eq, hlen]

/-- Settles O26: the end of a START is known at its acceptance. -/
theorem startSegmentIsSent : Obligations.StartSegmentIsSent := by
  intro s hf hi hw
  have hx := startIsAccepted s hf hi
  obtain ⟨u, hu, -, hn, hcells, hfault, hresp, hdata, hclk, htrace, hhost, hreads⟩ :=
    transmitsIn_of_exec hx (.inl rfl) hf hf hw AcceptedAs.ending_start
  exact ⟨_, u, hx, hu, htrace, hdata, hclk, hn, hcells, hfault, hresp, hhost, hreads⟩

/-- Settles O27: the end of a FRAME is known at its acceptance. -/
theorem storedFrameIsSent : Obligations.StoredFrameIsSent := by
  intro s idx c hf hi hw hlt hc
  have hx := frameIsAccepted s idx c hf hi hlt hc
  obtain ⟨u, hu, -, hn, hcells, hfault, hresp, hdata, hclk, htrace, hhost, hreads⟩ :=
    transmitsIn_of_exec hx (.inr (.inl ⟨idx, rfl⟩)) hf hf hw fun ha => ha.ending_frame hc
  exact ⟨_, u, hx, hu, htrace, hdata, hclk, hn, hcells, hfault, hresp, hhost, hreads⟩

/-- Settles O28: the end of an END is known at its acceptance. -/
theorem endSegmentIsSent : Obligations.EndSegmentIsSent := by
  intro s m hf hi hw
  have hx := endIsAccepted s m hf hi
  obtain ⟨u, hu, -, hn, hcells, hfault, hresp, hdata, hclk, htrace, hhost, hreads⟩ :=
    transmitsIn_of_exec hx (.inr (.inr (.inl ⟨m, rfl⟩))) hf hf hw AcceptedAs.ending_endTrain
  exact ⟨_, u, hx, hu, htrace, hdata, hclk, hn, hcells, hfault, hresp, hhost, hreads⟩

/-- Settles O29: the end of a REFRESH is known at its acceptance; cell memory reads as the re-encoded one. -/
theorem refreshSendsWholeStrip : Obligations.RefreshSendsWholeStrip := by
  intro s n hf hi hw hn hcr
  have hx := refreshIsAccepted s n hf hi hn hcr
  obtain ⟨u, hu, -, hcount, hcells, hfault, hresp, hdata, hclk, htrace, hhost, hreads⟩ :=
    transmitsIn_of_exec hx (.inr (.inr (.inr ⟨n, rfl⟩))) hf hf hw AcceptedAs.ending_refresh
  refine ⟨_, u, hx, hu, htrace, fun k hk => ?_, fun k hk => ?_, hdata, hclk, hcount, hfault.trans hf, hresp, hhost,
    hreads⟩
  · rw [hcells, Memory.read_reencodeFrom, if_pos (by omega)]
  · rw [hcells, Memory.read_reencodeFrom, if_neg (by omega)]

/-- Settles O30: a REFRESH of no cell needs none, sends no frame and re-encodes nothing. -/
theorem emptyRefreshIsSent : Obligations.EmptyRefreshIsSent := by
  obtain ⟨-, -, -, hcounts⟩ := traceCounts
  obtain ⟨hpulses, -, hlen⟩ := hcounts []
  refine ⟨hlen, hpulses, fun s hf hi hw => ?_⟩
  have hx := refreshIsAccepted s 0 hf hi (Nat.zero_le _) nofun
  obtain ⟨u, hu, -, -, hcells, -, -, -, -, htrace, -, -⟩ :=
    transmitsIn_of_exec hx (.inr (.inr (.inr ⟨0, rfl⟩))) hf hf hw AcceptedAs.ending_refresh
  exact ⟨_, u, hx, hu, htrace, hcells⟩

end Sys2Proof.Machine

namespace Sys2Proof.Machine

/-! ## Programs of a well-behaved host

A block is ready for the words its host has still to issue; running a word's moves leaves it ready for the words after
it. A program's effect is its words' effects in a row. -/

/-- The block is idle and unfaulted, and its host is that of R223 with the words `ws` to issue. -/
structure Ready (nCells : Fin 65536) (tr : List Event) (m : Memory) (ws : List CmdWord) (s : State) : Prop where
  fault : s.fault = none
  idle : s.seqCmd = .none
  nCells : s.nCells = nCells
  trace : s.trace = tr
  cells : s.cells = m
  host : s.host = hostProgram ws

/-- From each state with `P` the machine runs to one with `Q`. -/
def LeadsTo (P Q : State → Prop) : Prop := ∀ s, P s → ∃ k t, runSteps k s = .next t ∧ Q t

theorem LeadsTo.refl (P : State → Prop) : LeadsTo P P := fun s h => ⟨0, s, rfl, h⟩

theorem LeadsTo.trans {P Q R : State → Prop} (h : LeadsTo P Q) (h' : LeadsTo Q R) : LeadsTo P R := by
  intro s hs
  obtain ⟨a, t, ha, ht⟩ := h s hs
  obtain ⟨b, u, hb, hu⟩ := h' t ht
  exact ⟨a + b, u, (runSteps_add ha).trans hb, hu⟩

theorem hostWaits_hostProgram (s : State) (ws : List CmdWord) : HostWaits (s.withHost (hostProgram ws)) := by
  cases ws with
  | nil => exact .inl rfl
  | cons w ws => exact .inr ⟨_, rfl⟩

/-- The moves for a word of a command that has no answer to read (R223). -/
theorem hostProgram_cons {i : Instr} (hi : ∀ idx, i ≠ .rdcell idx) (ws : List CmdWord) :
    hostProgram (encode i :: ws) = .awaitIdle :: .issue (encode i) :: hostProgram ws := by
  have hr : isRdcell (encode i) = false := by
    rw [isRdcell, decodeOfEncode i]
    cases i with
    | rdcell idx => exact absurd rfl (hi idx)
    | _ => rfl
  simp [hostProgram, wordMoves, hr]

section Word

variable {nCells : Fin 65536} {tr : List Event} {m : Memory} {ws : List CmdWord} {s : State}

/-- The wait of a ready host is over at once, and the word is issued. -/
theorem Ready.runSteps_issue {i : Instr} {t : State} (h : Ready nCells tr m (encode i :: ws) s)
    (hi : ∀ idx, i ≠ .rdcell idx) (hx : exec i (s.withHost (hostProgram ws)) = .next t) :
    runSteps 2 s = .next t := by
  have hw := step_awaitIdle_idle (h.host.trans (hostProgram_cons hi ws)) h.idle
  have hs : step (s.withHost (.issue (encode i) :: hostProgram ws)) = .next t := by
    rw [step_cons rfl]
    exact (issue_cmd (decodeOfEncode i) _).trans hx
  rw [runSteps_succ 1 hw]
  exact runSteps_succ 0 hs

/-- A command that sets BUSY is issued and sent, and the host has the next word to issue. -/
theorem Ready.transmits {i : Instr} {t : State} {m' : Memory} {es : List Event} {d c : Level}
    (h : Ready nCells tr m (encode i :: ws) s) (ht : Transmits i)
    (hx : exec i (s.withHost (hostProgram ws)) = .next t) (htf : t.fault = none) (hw : t.host = hostProgram ws)
    (he : AcceptedAs i (s.withHost (hostProgram ws)) t →
      t.ending = ⟨s.nCells, m', s.fault, s.resp, d, c, s.trace ++ es, hostProgram ws, s.reads⟩) :
    ∃ k u, runSteps k s = .next u ∧ Ready nCells (tr ++ es) m' ws u := by
  have hi (idx : Index) : i ≠ .rdcell idx := by
    rintro rfl
    simp [Transmits] at ht
  obtain ⟨u, ⟨hrun, -⟩, hui, hn, hcells, hfault, -, -, -, htrace, hhost, -⟩ :=
    transmitsIn_of_exec hx ht h.fault htf ((hostWaits_hostProgram s ws).congr hw) he
  exact ⟨2 + acceptedSteps i, u, (runSteps_add (h.runSteps_issue hi hx)).trans hrun, hfault.trans h.fault, hui,
    hn.trans h.nCells, by rw [htrace, h.trace], hcells, hhost⟩

end Word

section Words

variable (nCells : Fin 65536) (tr : List Event) (m : Memory) (ws : List CmdWord)

theorem leadsTo_start :
    LeadsTo (Ready nCells tr m (encode .start :: ws)) (Ready nCells (tr ++ traceStart) m ws) := by
  rintro s ⟨hf, hi, rfl, rfl, rfl, hh⟩
  have hx := startIsAccepted (s.withHost (hostProgram ws)) hf hi
  exact Ready.transmits ⟨hf, hi, rfl, rfl, rfl, hh⟩ (.inl rfl) hx hf rfl AcceptedAs.ending_start

theorem leadsTo_endTrain (k : Index) :
    LeadsTo (Ready nCells tr m (encode (.endTrain k) :: ws)) (Ready nCells (tr ++ traceEnd k.toNat) m ws) := by
  rintro s ⟨hf, hi, rfl, rfl, rfl, hh⟩
  have hx := endIsAccepted (s.withHost (hostProgram ws)) k hf hi
  exact Ready.transmits ⟨hf, hi, rfl, rfl, rfl, hh⟩ (.inr (.inr (.inl ⟨k, rfl⟩))) hx hf rfl
    AcceptedAs.ending_endTrain

theorem leadsTo_refresh {n : Index} (hn : n.toNat ≤ nCells.val)
    (hcr : ∀ k, k < n.toNat → (m.read k).isSome = true) :
    LeadsTo (Ready nCells tr m (encode (.refresh n) :: ws))
      (Ready nCells (tr ++ traceRefresh (m.slice 0 n.toNat)) (m.reencodeFrom 0 n.toNat) ws) := by
  rintro s ⟨hf, hi, rfl, rfl, rfl, hh⟩
  have hx := refreshIsAccepted (s.withHost (hostProgram ws)) n hf hi hn hcr
  exact Ready.transmits ⟨hf, hi, rfl, rfl, rfl, hh⟩ (.inr (.inr (.inr ⟨n, rfl⟩))) hx hf rfl
    AcceptedAs.ending_refresh

variable {idx : Index} {c : CellRec} (hlt : idx.toNat < nCells.val) (hc : m.read idx.toNat = some c)
include hlt hc

theorem leadsTo_frame :
    LeadsTo (Ready nCells tr m (encode (.frame idx) :: ws)) (Ready nCells (tr ++ traceFrame c.frame) m ws) := by
  rintro s ⟨hf, hi, rfl, rfl, rfl, hh⟩
  have hx := frameIsAccepted (s.withHost (hostProgram ws)) idx c hf hi hlt hc
  exact Ready.transmits ⟨hf, hi, rfl, rfl, rfl, hh⟩ (.inr (.inl ⟨idx, rfl⟩)) hx hf rfl fun ha => ha.ending_frame hc

theorem leadsTo_enc :
    LeadsTo (Ready nCells tr m (encode (.enc idx) :: ws)) (Ready nCells tr (m.reencode idx.toNat) ws) := by
  rintro s ⟨hf, hi, rfl, rfl, rfl, hh⟩
  have hx := exec_enc_eq (s := s.withHost (hostProgram ws)) hf hi hlt hc
  exact ⟨2, _, Ready.runSteps_issue ⟨hf, hi, rfl, rfl, rfl, hh⟩ nofun hx, hf, hi, rfl, rfl,
    (Memory.reencode_of_read hc).symm, rfl⟩

end Words

/-- ENC k; FRAME k for `count` cells from `k` on (R156). -/
def cellWords (k count : Nat) : List CmdWord :=
  (List.range' k count).flatMap fun k => [encode (.enc (.ofNat 16 k)), encode (.frame (.ofNat 16 k))]

theorem decomposition_eq (n : Index) :
    decomposition n = encode .start :: (cellWords 0 n.toNat ++ [encode (.endTrain n)]) := by
  rw [decomposition, cellWords, List.range_eq_range', List.cons_append]

/-- ENC and FRAME of each cell send the frames a REFRESH sends and leave cell memory as it does. -/
theorem leadsTo_cellWords (nCells : Fin 65536) (tr : List Event) (m : Memory) (ws : List CmdWord) {k count : Nat}
    (hn : k + count ≤ nCells.val) (hcr : m.createdFrom k count = true) :
    LeadsTo (Ready nCells tr m (cellWords k count ++ ws))
      (Ready nCells (tr ++ traceFrames (m.slice k count)) (m.reencodeFrom k count) ws) := by
  induction count generalizing k m tr with
  | zero => simpa [cellWords, Memory.slice, Memory.reencodeFrom] using LeadsTo.refl _
  | succ count ih =>
    rw [Memory.createdFrom, Bool.and_eq_true] at hcr
    obtain ⟨c, hc⟩ := Option.isSome_iff_exists.1 hcr.1
    have hk : (BitVec.ofNat 16 k).toNat = k := by
      rw [BitVec.toNat_ofNat, Nat.mod_eq_of_lt]
      have := nCells.isLt
      omega
    have hc' : (m.reencode k).read k = some c.reencoded := by
      rw [Memory.read_reencode, if_pos rfl, hc, Option.map_some]
    have henc := leadsTo_enc nCells tr m (encode (.frame (.ofNat 16 k)) :: (cellWords (k + 1) count ++ ws))
      (idx := .ofNat 16 k) (c := c) (by omega) (by rwa [hk])
    have hframe := leadsTo_frame nCells tr (m.reencode k) (cellWords (k + 1) count ++ ws)
      (idx := .ofNat 16 k) (c := c.reencoded) (by omega) (by rwa [hk])
    have hrest := ih (tr ++ traceFrame c.encoded) (m.reencode k) (k := k + 1) (by omega)
      (Memory.createdFrom_reencode k hcr.2)
    rw [hk] at henc
    rw [Memory.slice_of_read hc, traceFrames_cons, ← List.append_assoc, ← m.slice_reencode k]
    exact (henc.trans hframe).trans hrest

/-- A ready host with no word left has ended its run (R222). -/
theorem Ready.runEnded {nCells : Fin 65536} {tr : List Event} {m : Memory} {s : State} (h : Ready nCells tr m [] s) :
    s.runEnded = true :=
  (State.runEnded_iff s).2 ⟨fun w hw => by simp [h.host, hostProgram] at hw, h.idle, h.fault⟩

/-- Settles O32: both programs lead from a ready block to a ready one with the same trace and cell memory. -/
theorem refreshDecomposes : Obligations.RefreshDecomposes := by
  intro s n hf hi hn hcr
  have hcr0 := Memory.createdFrom_zero_iff.2 hcr
  have ready (ws : List CmdWord) : Ready s.nCells s.trace s.cells ws (s.withHost (hostProgram ws)) :=
    ⟨hf, hi, rfl, rfl, rfl, rfl⟩
  have hparts := ((leadsTo_start s.nCells s.trace s.cells _).trans
    (leadsTo_cellWords _ _ _ [encode (.endTrain n)] (by omega) hcr0)).trans (leadsTo_endTrain _ _ _ [] n)
  obtain ⟨a, u, ha, hu⟩ := hparts _ (ready _)
  obtain ⟨b, v, hb, hv⟩ := leadsTo_refresh s.nCells s.trace s.cells [] hn hcr _ (ready _)
  refine ⟨a, b, u, v, by rwa [decomposition_eq], hu.runEnded, hb, hv.runEnded, ?_, hu.cells.trans hv.cells.symm, ?_⟩
  · rw [hu.trace, hv.trace, traceRefresh_eq, Memory.slice_length _ _ _ hcr0]
    simp only [List.append_assoc]
  · rw [State.status_idle hu.fault hu.idle, State.status_idle hv.fault hv.idle]

end Sys2Proof.Machine

namespace Sys2Proof.Machine

/-! ## The ILLEGAL words -/

/-- A field of a word is not zero exactly when one of its bits is 1. -/
theorem bitField_ne_zero_iff {w : CmdWord} {lo n : Nat} :
    bitField w lo n ≠ 0 ↔ ∃ j, (lo ≤ j ∧ j < lo + n) ∧ w.getLsbD j = true := by
  constructor
  · intro h
    by_contra hn
    refine h (BitVec.eq_of_getLsbD_eq fun i hi => ?_)
    rw [BitVec.getLsbD_extractLsb', BitVec.ofNat_eq_ofNat, BitVec.getLsbD_zero]
    simpa [hi] using fun hb => hn ⟨lo + i, ⟨by omega, by omega⟩, hb⟩
  · rintro ⟨j, ⟨hlo, hhi⟩, hj⟩ h
    have hz := congrArg (·.getLsbD (j - lo)) h
    have hlt : j - lo < n := by omega
    simp [hlt, hlo, hj] at hz

theorem exists_need_eq_illegal_iff {w : CmdWord} {ok : Bool} {i : Instr} :
    (∃ why, need w ok i = .illegal why) ↔ ¬ ok = true := by
  cases ok <;> simp [need]

/-- The check of a command with a reserved field below IDX fails exactly when a bit of that field or of bits 59:48 is 1
(R78). -/
theorem exists_need_highZero_eq_illegal_iff {w : CmdWord} {lo n : Nat} {i : Instr} :
    (∃ why, need w (highZero w && bitField w lo n == 0) i = .illegal why) ↔
      ∃ j, ((48 ≤ j ∧ j < 48 + 12) ∨ (lo ≤ j ∧ j < lo + n)) ∧ w.getLsbD j = true := by
  rw [exists_need_eq_illegal_iff, Bool.and_eq_true, highZero_iff, beq_iff_eq, not_and_or, ← ne_eq, ← ne_eq,
    bitField_ne_zero_iff, bitField_ne_zero_iff, ← exists_or]
  simp only [or_and_right]

/-- Under a legal OP the verdict is ILLEGAL exactly when one of `bits`, those that must be 0, is 1. -/
theorem illegal_iff_of_legal_op {op : Nat} {w : CmdWord} {bits : Nat → Prop} {verdict : Prop} (hop : 0 < op ∧ op < 9)
    (hbits : ∀ j, mustBeZero op j = true ↔ bits j) (h : verdict ↔ ∃ j, bits j ∧ w.getLsbD j = true) :
    verdict ↔ op = 0 ∨ 9 ≤ op ∨ ∃ j, mustBeZero op j = true ∧ w.getLsbD j = true := by
  obtain ⟨h0, h9⟩ := hop
  simp [h, hbits, Nat.ne_of_gt h0, Nat.not_le.2 h9]

/-- The bits that must be 0 in a word that uses no field but IDX (R78). -/
theorem mustBeZero_enc_iff (j : Nat) : mustBeZero 2 j = true ↔ (48 ≤ j ∧ j < 48 + 12) ∨ (0 ≤ j ∧ j < 0 + 32) := by
  simp [mustBeZero]
  omega

/-- The column "bits that must be 0" of R78 is the decoder's check, OP by OP. -/
theorem exists_decode_eq_illegal_iff (w : CmdWord) :
    (∃ why, decode w = .illegal why) ↔
      ((opField w).toNat = 0 ∨ 9 ≤ (opField w).toNat ∨
        ∃ j, mustBeZero (opField w).toNat j = true ∧ w.getLsbD j = true) := by
  have idx {op : Nat} {i : Instr} (hbits : mustBeZero op = mustBeZero 2) (hop : 0 < op ∧ op < 9) :
      (∃ why, need w (highZero w && bitField w 0 32 == 0) i = .illegal why) ↔
        op = 0 ∨ 9 ≤ op ∨ ∃ j, mustBeZero op j = true ∧ w.getLsbD j = true :=
    illegal_iff_of_legal_op hop (hbits ▸ mustBeZero_enc_iff) exists_need_highZero_eq_illegal_iff
  unfold decode
  split
  next hop =>
    rw [hop]
    refine illegal_iff_of_legal_op (by decide) (fun j => ?_) exists_need_highZero_eq_illegal_iff
    simp [mustBeZero]; omega
  next hop => rw [hop]; exact idx rfl (by decide)
  next hop =>
    rw [hop]
    refine illegal_iff_of_legal_op (by decide) (fun j => ?_) exists_need_highZero_eq_illegal_iff
    simp [mustBeZero]; omega
  next hop => rw [hop]; exact idx rfl (by decide)
  next hop =>
    rw [hop]
    refine illegal_iff_of_legal_op (by decide) (fun j => ?_)
      (exists_need_eq_illegal_iff.trans ((not_congr beq_iff_eq).trans bitField_ne_zero_iff))
    simp [mustBeZero]; omega
  next hop => rw [hop]; exact idx rfl (by decide)
  next hop => rw [hop]; exact idx rfl (by decide)
  next hop => rw [hop]; exact idx rfl (by decide)
  next h1 h2 h3 h4 h5 h6 h7 h8 =>
    have hop : (opField w).toNat = 0 ∨ 9 ≤ (opField w).toNat := by
      simp only [imp_false] at h1 h2 h3 h4 h5 h6 h7 h8
      omega
    exact iff_of_true ⟨_, rfl⟩ (hop.imp_right .inl)

/-- Settles O16: the decoder's check as bits, and the issue of an ILLEGAL word on a block that makes no other check. -/
theorem illegalWordsFault : Obligations.IllegalWordsFault := by
  refine fun w => ⟨exists_decode_eq_illegal_iff w, fun s why hf hi hd => ?_⟩
  rw [issue_illegal hd, accept_idle hf hi]
  rfl

end Sys2Proof.Machine

namespace Sys2Proof.Machine

/-! ## The checks of a command on an idle, unfaulted block -/

/-- A REFRESH reads no UNCREATED slot exactly when its check of the cells passes (R135, R183). -/
theorem readsUncreated_refresh {n : Index} {s : State} :
    readsUncreated (.refresh n) s = !s.cells.createdFrom 0 n.toNat := by
  rw [Bool.eq_iff_iff, Bool.not_eq_true', ← Bool.not_eq_true, Memory.createdFrom_zero_iff]
  simp [readsUncreated]

section Idle

variable {s : State} {i : Instr} (hf : s.fault = none) (hi : s.seqCmd = .none)
include hf hi

/-- The index check is the first of a command's own (R182, R187). -/
theorem exec_eq_indexRange (hx : indexTooLarge i s = true) : exec i s = .next (s.raiseFault .indexRange) := by
  cases i with
  | setc idx r g b => rw [exec, execSetc, accept_idle hf hi, withIndex_out (of_decide_eq_true hx)]
  | enc | encraw | rdcell | frame =>
    simp only [exec, execEnc, execEncraw, execRdcell, execFrame, accept_idle hf hi]
    exact withCell_out (of_decide_eq_true hx) _
  | refresh n => rw [exec, execRefresh, accept_idle hf hi, if_pos (of_decide_eq_true hx), raise_eq]
  | start | endTrain => cases hx

/-- The check of the slots comes after the index check (R183, R187). -/
theorem exec_eq_uncreatedCell (hx : indexTooLarge i s = false) (hu : readsUncreated i s = true) :
    exec i s = .next (s.raiseFault .uncreatedCell) := by
  cases i with
  | enc | encraw | rdcell | frame =>
    simp only [exec, execEnc, execEncraw, execRdcell, execFrame, accept_idle hf hi]
    exact withCell_uncreated (Nat.lt_of_not_le (of_decide_eq_false hx)) (Option.isNone_iff_eq_none.1 hu) _
  | refresh n =>
    rw [readsUncreated_refresh, Bool.not_eq_true'] at hu
    rw [exec, execRefresh, accept_idle hf hi, if_neg (of_decide_eq_false hx), if_neg (by simp [hu]), raise_eq]
  | setc | start | endTrain => cases hu

/-- A command that passes both its checks raises no fault. -/
theorem exists_exec_eq_unfaulted (hx : indexTooLarge i s = false) (hu : readsUncreated i s = false) :
    ∃ t, exec i s = .next t ∧ t.fault = none := by
  cases i with
  | setc idx r g b => exact ⟨_, exec_setc_eq hf hi (Nat.lt_of_not_le (of_decide_eq_false hx)) r g b, hf⟩
  | enc | encraw | rdcell | frame =>
    obtain ⟨c, hc⟩ := Option.isSome_iff_exists.1 (Option.isNone_eq_false_iff.1 hu)
    simp only [exec, execEnc, execEncraw, execRdcell, execFrame, accept_idle hf hi]
    exact ⟨_, withCell_in (Nat.lt_of_not_le (of_decide_eq_false hx)) hc _, hf⟩
  | start => exact ⟨_, startIsAccepted s hf hi, hf⟩
  | endTrain m => exact ⟨_, endIsAccepted s m hf hi, hf⟩
  | refresh n =>
    rw [readsUncreated_refresh, Bool.not_eq_false', Memory.createdFrom_zero_iff] at hu
    exact ⟨_, refreshIsAccepted s n hf hi (Nat.le_of_not_lt (of_decide_eq_false hx)) hu, hf⟩

end Idle

/-- Settles O13: each command that names a cell makes the index check first, and END makes none. -/
theorem indexOutOfRangeFaults : Obligations.IndexOutOfRangeFaults := by
  refine fun s hf hi => ⟨fun idx hx => ?_, fun n hn => exec_eq_indexRange hf hi (decide_eq_true hn),
    fun m => ⟨_, endIsAccepted s m hf hi, hf⟩⟩
  have hx := decide_eq_true hx
  exact ⟨fun r g b => exec_eq_indexRange hf hi hx, exec_eq_indexRange hf hi hx,
    fun code => exec_eq_indexRange hf hi hx, exec_eq_indexRange hf hi hx, exec_eq_indexRange hf hi hx⟩

/-- Settles O14: with its index in range a command checks the slots it reads, of which SETC has none. -/
theorem uncreatedCellFaults : Obligations.UncreatedCellFaults := by
  refine fun s hf hi => ⟨fun idx hlt hc => ?_, fun n hn ⟨k, hk, hc⟩ => ?_, fun idx r g b t hst => ?_⟩
  · have hx : decide (s.nCells.val ≤ idx.toNat) = false := decide_eq_false (Nat.not_le.2 hlt)
    have hu : (s.cellRead idx).isNone = true := Option.isNone_iff_eq_none.2 hc
    exact ⟨exec_eq_uncreatedCell hf hi hx hu, fun code => exec_eq_uncreatedCell hf hi hx hu,
      exec_eq_uncreatedCell hf hi hx hu, exec_eq_uncreatedCell hf hi hx hu⟩
  · refine exec_eq_uncreatedCell hf hi (decide_eq_false (Nat.not_lt.2 hn)) ?_
    exact List.any_eq_true.2 ⟨k, List.mem_range.2 hk, Option.isNone_iff_eq_none.2 hc⟩
  · cases hx : indexTooLarge (.setc idx r g b) s with
    | true =>
      rw [exec_eq_indexRange hf hi hx] at hst
      cases hst
      simp
    | false =>
      obtain ⟨u, hu, hfu⟩ := exists_exec_eq_unfaulted hf hi hx rfl
      rw [hu] at hst
      cases hst
      simp [hfu]

/-! ## An issue on a faulted and on a busy block -/

/-- A faulted block takes no word, legal or not (R186). -/
theorem issue_faulted {s : State} (hf : s.fault ≠ none) (w : CmdWord) : issue w s = .next s := by
  rcases issue_cases w s with ⟨-, h⟩ | ⟨hn, -⟩ | ⟨hn, -⟩
  · exact h
  · exact absurd hn hf
  · exact absurd hn hf

/-- Any word on a busy block raises BUSY_COMMAND, legal or not (R184). -/
theorem issue_busy {s : State} (hf : s.fault = none) (hb : s.seqCmd ≠ .none) (w : CmdWord) :
    issue w s = .next (s.raiseFault .busyCommand) := by
  rcases issue_cases w s with ⟨hn, -⟩ | ⟨-, code, hcode, h⟩ | ⟨-, hi, -⟩
  · exact absurd hf hn
  · obtain rfl := hcode.2 hb
    exact h
  · exact absurd hi hb

theorem State.seqEnabled_of_faulted {s : State} (hf : s.fault ≠ none) : s.seqEnabled = false := by
  rw [← Bool.not_eq_true, s.seqEnabled_eq_true_iff]
  exact fun h => hf h.2

/-- A transmission cut short by BUSY_COMMAND goes on reading BUSY 1 (R186, C6). -/
theorem State.status_cut_short {s : State} (hf : s.fault = some .busyCommand) (hb : s.seqCmd ≠ .none) :
    s.status = 0x43 := by
  have hbusy : s.busy = true := s.busy_eq_true_iff.2 hb
  apply BitVec.eq_of_toNat_eq
  rw [s.status_toNat, hbusy, State.faulted, State.fcode, hf]
  rfl

/-- Settles O15: BUSY is checked before the word is looked at, and SEQ_CMD stays as it is. -/
theorem issueWhileBusyFaults : Obligations.IssueWhileBusyFaults :=
  fun _ w hf hb => ⟨issue_busy hf hb w, State.seqEnabled_of_faulted nofun, State.status_cut_short rfl hb⟩

/-- Of all steps a faulted block is left only those in which the host waits, passes, reads, or issues a word in vain
(R186). -/
theorem StepEffect.host_only_of_faulted {s t : State} (h : StepEffect s t) (hf : s.fault ≠ none) :
    t = { s with host := t.host, reads := t.reads } := by
  cases h with
  | hostOnly => rfl
  | raised w rest code hh hn => exact absurd hn hf
  | accepted w rest i hh hd hn => exact absurd hn hf
  | sequencer rest hs => exact absurd hs.1 hf

/-- Settles O17: a faulted block takes no word and has no micro-step, so its steps are the host's moves and reads. -/
theorem faultIsSticky : Obligations.FaultIsSticky := by
  refine fun s hf => ⟨State.seqEnabled_of_faulted hf, issue_faulted hf,
    fun t hst => (StepEffect.of_step hst).host_only_of_faulted hf, ?_, fun rest hh => step_cons hh,
    fun rest hh => step_cons hh, State.status_cut_short⟩
  rw [← Bool.not_eq_true, s.runEnded_iff]
  exact fun h => hf h.2.2

/-! ## The order of the checks (R187) -/

theorem faultDue_busy {s : State} (hb : s.seqCmd ≠ .none) (w : CmdWord) : faultDue w s = some .busyCommand :=
  if_pos (s.busy_eq_true_iff.2 hb)

theorem faultDue_illegal {s : State} {w : CmdWord} {why : IllegalWord} (hi : s.seqCmd = .none)
    (hd : decode w = .illegal why) : faultDue w s = some .illegalCommand := by
  simp [faultDue, s.busy_eq_false_iff.2 hi, hd]

theorem faultDue_cmd {s : State} {w : CmdWord} {i : Instr} (hi : s.seqCmd = .none) (hd : decode w = .cmd i) :
    faultDue w s =
      if indexTooLarge i s then some .indexRange else if readsUncreated i s then some .uncreatedCell else none := by
  simp [faultDue, s.busy_eq_false_iff.2 hi, hd]

/-- The answer to an issue on `s` when `due` is the fault it must raise. -/
def Answers (s : State) (o : Outcome) (due : Option FaultCode) : Prop :=
  match due with
  | some code => o = .next (s.raiseFault code)
  | none => ∃ t, o = .next t ∧ t.fault = none

/-- An issue on an unfaulted block raises the fault that is due, or none. -/
theorem issue_answers_faultDue {s : State} (hf : s.fault = none) (w : CmdWord) :
    Answers s (issue w s) (faultDue w s) := by
  by_cases hi : s.seqCmd = .none
  · cases hd : decode w with
    | illegal why =>
      rw [faultDue_illegal hi hd, issue_illegal hd, accept_idle hf hi]
      rfl
    | cmd i =>
      rw [faultDue_cmd hi hd, issue_cmd hd]
      split_ifs with hx hu
      · exact exec_eq_indexRange hf hi hx
      · exact exec_eq_uncreatedCell hf hi (eq_false_of_ne_true hx) hu
      · exact exists_exec_eq_unfaulted hf hi (eq_false_of_ne_true hx) (eq_false_of_ne_true hu)
  · rw [faultDue_busy hi]
    exact issue_busy hf hi w

/-- Settles O18: an issue answers with the fault due, and a micro-step leaves the fault recorded as it is. -/
theorem faultPriority : Obligations.FaultPriority := by
  refine ⟨fun s w hf => issue_faulted hf w, fun s w c hf hd => ?_, fun s w hf hd => ?_,
    fun s t hst => (SeqMove.of_seqStep hst).host_side_kept.1⟩
  · have h := issue_answers_faultDue hf w
    rwa [hd] at h
  · have h := issue_answers_faultDue hf w
    rwa [hd] at h

/-! ## When the model stops -/

/-- Neither agent has a step: a fault stopped the sequencer, and the host has no move left or waits for a BUSY that
stays 1 (R186, log entry 6). -/
def Stopped (s : State) : Prop :=
  s.fault ≠ none ∧ (s.host = [] ∨ ∃ rest, s.host = .awaitIdle :: rest ∧ s.seqCmd ≠ .none)

theorem Stopped.step_eq {s : State} (h : Stopped s) : step s = .fault .blockStopped := by
  obtain ⟨hf, hh | ⟨rest, hh, hb⟩⟩ := h
  · rw [step_nil hh, seqTurn_faulted hf]
  · rw [step_waits (.inr ⟨rest, hh⟩) hb, seqTurn_faulted hf]

theorem exists_issue_eq_next (w : CmdWord) (s : State) : ∃ t, issue w s = .next t := by
  rcases issue_cases w s with ⟨-, h⟩ | ⟨-, code, -, h⟩ | ⟨-, -, i, t, -, -, h⟩
  · exact ⟨_, h⟩
  · exact ⟨_, h⟩
  · exact ⟨_, h⟩

/-- A good block with no fault recorded has a step: a REFRESH in progress finds its cells created (R144). -/
theorem Inv.exists_step_of_unfaulted {s : State} (h : Inv s) (hf : s.fault = none) : ∃ t, step s = .next t := by
  rcases step_cases s with ⟨hn, -⟩ | ⟨-, -, -, he⟩ | ⟨m, rest, r, -, he⟩ | ⟨w, rest, -, he⟩ | ⟨-, -, rest, -, he⟩
  · exact absurd hf hn
  · exact ⟨_, he⟩
  · exact ⟨_, he⟩
  · rw [he]
    exact exists_issue_eq_next w _
  · obtain ⟨t, hm⟩ := (h.host rest s.reads).legalRegisters.exists_seqMove
    exact ⟨t, he.trans hm.seqStep_eq⟩

/-- On a faulted block the host can make every move but a wait for a BUSY that stays 1. -/
theorem exists_step_of_faulted {s : State} (hf : s.fault ≠ none) (hs : ¬ Stopped s) : ∃ t, step s = .next t := by
  cases hh : s.host with
  | nil => exact absurd ⟨hf, .inl hh⟩ hs
  | cons m rest =>
    cases m with
    | issue w =>
      rw [step_cons hh]
      exact exists_issue_eq_next w _
    | awaitIdle =>
      have hi : s.seqCmd = .none := by_contra fun hb => hs ⟨hf, .inr ⟨rest, hh, hb⟩⟩
      exact ⟨_, step_awaitIdle_idle hh hi⟩
    | pass => exact ⟨_, step_pass_disabled hh fun he => hf he.2⟩
    | readStatus | readResp => exact ⟨_, step_cons hh⟩

/-- Settles O43: a stopped block stops the model with `blockStopped`, and every other good block has a next state. -/
theorem stopsOnlyWhenFaulted : Obligations.StopsOnlyWhenFaulted := by
  intro s h
  by_cases hs : Stopped s
  · rw [hs.step_eq]
    exact ⟨nofun, fun f => ⟨fun hf => by cases hf; exact ⟨rfl, hs⟩, fun ⟨hf, _⟩ => hf ▸ rfl⟩⟩
  · have ⟨t, ht⟩ : ∃ t, step s = .next t := by
      by_cases hf : s.fault = none
      · exact h.exists_step_of_unfaulted hf
      · exact exists_step_of_faulted hf hs
    rw [ht]
    exact ⟨nofun, fun f => ⟨nofun, fun hf => absurd hf.2 hs⟩⟩

end Sys2Proof.Machine

namespace Sys2Proof.Machine

/-! ## Launch, and raw frames under a REFRESH -/

/-- Settles O41: a launch has the three parts of the invariant. -/
theorem validLaunchIsGood : Obligations.ValidLaunchIsGood := fun _ _ h => Inv.of_launch h

/-- Slot by slot the two memories hold records with the same channels, or none: what a REFRESH makes of them is the
same. -/
def SameChannels (m m' : Memory) : Prop :=
  ∀ j, (m.read j).map CellRec.reencoded = (m'.read j).map CellRec.reencoded

/-- Replacing a record's frame changes no channel (R105). -/
theorem sameChannels_write_withFrame {m : Memory} {i : Nat} {c : CellRec} (hc : m.read i = some c) (f : Frame) :
    SameChannels (m.write i (c.withFrame f)) m := by
  intro j
  rw [Memory.read_write]
  split
  · subst_vars
    rw [hc]
    rfl
  · rfl

theorem SameChannels.slice {m m' : Memory} (h : SameChannels m m') (k count : Nat) :
    (m.slice k count).map CellRec.reencoded = (m'.slice k count).map CellRec.reencoded := by
  induction count generalizing k with
  | zero => rfl
  | succ count ih => simp only [Memory.slice, List.map_append, ← Option.toList_map, h k, ih]

/-- What a REFRESH sends depends on the channels alone (R155). -/
theorem traceRefresh_map_reencoded (cs : List CellRec) :
    traceRefresh (cs.map CellRec.reencoded) = traceRefresh cs := by
  simp [traceRefresh, List.flatMap_map]

theorem SameChannels.traceRefresh_eq {m m' : Memory} (h : SameChannels m m') (k count : Nat) :
    traceRefresh (m.slice k count) = traceRefresh (m'.slice k count) := by
  rw [← traceRefresh_map_reencoded, h.slice, traceRefresh_map_reencoded]

/-- Settles O31: ENCRAW changes no channel, and a REFRESH sends and stores what the channels give. -/
theorem refreshDiscardsRawFrame : Obligations.RefreshDiscardsRawFrame := by
  intro s n k code c hf hi hw hn hcr hk hc
  let raw := s.cellWrite k (c.withFrame (rawEncode code))
  have hsame : SameChannels raw.cells s.cells := sameChannels_write_withFrame hc _
  have hcr' (j : Nat) (hj : j < n.toNat) : (raw.cells.read j).isSome = true := Memory.isSome_read_write _ _ (hcr j hj)
  obtain ⟨t, u, ht, hu, htrace, hbelow, habove, -⟩ := refreshSendsWholeStrip raw n hf hi hw hn hcr'
  obtain ⟨t', u', ht', hu', htrace', hbelow', habove', -⟩ := refreshSendsWholeStrip s n hf hi hw hn hcr
  refine ⟨raw, t, u, t', u', exec_encraw_eq hf hi (by omega) hc code, ht, hu, ht', hu', ?_, fun j => ?_, ?_⟩
  · rw [htrace, htrace', hsame.traceRefresh_eq]
    rfl
  · by_cases hj : j < n.toNat
    · rw [hbelow j hj, hbelow' j hj, hsame j]
    · have hjk : j ≠ k.toNat := by omega
      rw [habove j (by omega), habove' j (by omega)]
      exact Memory.read_write_other _ _ hjk
  · rw [hbelow _ hk, hsame, hc]
    rfl

/-! ## Every run ends -/

/-- An acceptance leaves the fault recorded and the host's side as they were. -/
theorem AcceptedAs.host_side_kept {i : Instr} {s t : State} (h : AcceptedAs i s t) :
    t.fault = s.fault ∧ t.host = s.host ∧ t.reads = s.reads := by
  cases i with
  | setc => obtain ⟨-, rfl⟩ := h; exact ⟨rfl, rfl, rfl⟩
  | enc | encraw | rdcell | frame => obtain ⟨c, -, -, rfl⟩ := h; exact ⟨rfl, rfl, rfl⟩
  | start | endTrain => obtain rfl := h; exact ⟨rfl, rfl, rfl⟩
  | refresh => obtain ⟨-, -, rfl⟩ := h; exact ⟨rfl, rfl, rfl⟩

/-- The longest transmission is a REFRESH of 65535 cells (R221). -/
theorem acceptedSteps_lt_stepsPerMove (i : Instr) : acceptedSteps i < stepsPerMove := by
  cases i with
  | setc | enc | encraw | rdcell | start | frame => simp [acceptedSteps, stepsPerMove]
  | endTrain m =>
    have := m.isLt
    simp only [acceptedSteps, stepsPerMove]
    omega
  | refresh n =>
    have := n.isLt
    simp only [acceptedSteps, stepsPerMove]
    omega

theorem AcceptedAs.stepsLeft_lt {i : Instr} {s t : State} (ha : AcceptedAs i s t) (hi : s.seqCmd = .none) :
    t.stepsLeft < stepsPerMove := by
  by_cases hb : t.seqCmd = .none
  · rw [State.stepsLeft_of_idle hb]
    decide
  · rw [ha.stepsLeft ((ha.busy_iff hi).1 hb)]
    exact acceptedSteps_lt_stepsPerMove i

/-- An issue takes its move off the host's list and adds fewer steps than a move may lead to. -/
theorem issue_stepsLeft_lt {s t : State} {w : CmdWord} (h : issue w s = .next t) :
    t.host = s.host ∧ t.stepsLeft < s.stepsLeft + stepsPerMove := by
  have hpos : 0 < stepsPerMove := by decide
  rcases issue_cases w s with ⟨-, he⟩ | ⟨-, code, -, he⟩ | ⟨-, hi, i, u, -, ha, he⟩
  · rw [he] at h
    cases h
    exact ⟨rfl, Nat.lt_add_of_pos_right hpos⟩
  · rw [he] at h
    cases h
    exact ⟨rfl, Nat.lt_add_of_pos_right hpos⟩
  · rw [he] at h
    cases h
    obtain ⟨-, hh, -⟩ := ha.host_side_kept
    exact ⟨hh, Nat.lt_add_left _ (ha.stepsLeft_lt hi)⟩

/-- The bound of R221 on the steps to the end of a run. -/
def State.stepsBound (s : State) : Nat := s.stepsLeft + s.host.length * stepsPerMove

/-- A move that is gone makes room for the steps it leads to. -/
theorem stepsBound_lt_of_move {s t : State} {m : HostMove} {rest : List HostMove} (hh : s.host = m :: rest)
    (ht : t.host = rest) (hlt : t.stepsLeft < s.stepsLeft + stepsPerMove) : t.stepsBound < s.stepsBound := by
  rw [State.stepsBound, State.stepsBound, ht, hh, List.length_cons, Nat.succ_mul]
  omega

/-- Until the host has made its moves and the block is idle, each step of an unfaulted good state lowers the bound. -/
theorem Inv.stepsBound_lt {s t : State} (h : Inv s) (hf : s.fault = none) (hne : ¬ (s.seqCmd = .none ∧ s.host = []))
    (hst : step s = .next t) : t.stepsBound < s.stepsBound := by
  have hpos : 0 < stepsPerMove := by decide
  rcases step_cases s with ⟨hn, -⟩ | ⟨-, hi, hh, -⟩ | ⟨m, rest, r, hh, he⟩ | ⟨w, rest, hh, he⟩ | ⟨-, hb, rest, hr, he⟩
  · exact absurd hf hn
  · exact absurd ⟨hi, hh⟩ hne
  · rw [he] at hst
    cases hst
    exact stepsBound_lt_of_move hh rfl (Nat.lt_add_of_pos_right hpos)
  · rw [he] at hst
    obtain ⟨ht, hlt⟩ := issue_stepsLeft_lt hst
    exact stepsBound_lt_of_move hh ht hlt
  · have hm := SeqMove.of_seqStep (he.symm.trans hst)
    obtain ⟨-, hhost, -⟩ := hm.host_side_kept
    have hsucc : t.stepsLeft + 1 = s.stepsLeft := hm.stepsLeft_succ hb (h.host rest s.reads).legalRegisters
    rcases hr with ⟨-, hrest⟩ | hh
    · rw [State.stepsBound, State.stepsBound, hhost.trans hrest]
      omega
    · exact stepsBound_lt_of_move hh hhost (by omega)

/-- Settles O34, by strong induction on the bound. -/
theorem everyRunEnds : Obligations.EveryRunEnds := by
  intro s h
  induction hb : s.stepsBound using Nat.strong_induction_on generalizing s with
  | _ b ih =>
    by_cases hf : s.fault = none
    · by_cases hend : s.seqCmd = .none ∧ s.host = []
      · obtain ⟨hi, hh⟩ := hend
        exact ⟨0, s, Nat.zero_le _, rfl, .inl ⟨s.runEnded_iff.2 ⟨by simp [hh], hi, hf⟩, hh⟩⟩
      · obtain ⟨t, hst⟩ := h.exists_step_of_unfaulted hf
        have hlt : t.stepsBound < s.stepsBound := h.stepsBound_lt hf hend hst
        obtain ⟨k, u, hk, hrun, hu⟩ := ih _ (hb ▸ hlt) t (stepKeepsInv s t h hst) rfl
        exact ⟨k + 1, u, hk.trans_lt hlt, (runSteps_succ k hst).trans hrun, hu⟩
    · exact ⟨0, s, Nat.zero_le _, rfl, .inr hf⟩

/-! ## The well-behaved host -/

/-- Knowing that BUSY reads 0 never makes a host ill-behaved (R214). -/
theorem wellBehaved_of_false (b : Bool) {moves : List HostMove} (h : wellBehaved false moves = true) :
    wellBehaved b moves = true := by
  induction moves with
  | nil => rfl
  | cons m rest ih =>
    cases m with
    | issue w => simp [wellBehaved] at h
    | awaitIdle => exact h
    | pass | readStatus | readResp => exact ih h

/-- The host issues only when it knows that BUSY reads 0, and BUSY_COMMAND is not recorded (R214, R217). -/
def NeverBusyCommand (s : State) : Prop := s.fault ≠ some .busyCommand ∧ wellBehaved (!s.busy) s.host = true

theorem SeqMove.neverBusyCommand {s t : State} (hm : SeqMove s t) (hb : s.seqCmd ≠ .none) (h : NeverBusyCommand s) :
    NeverBusyCommand t := by
  obtain ⟨hf, hw⟩ := h
  obtain ⟨hfault, hhost, -⟩ := hm.host_side_kept
  rw [(State.busy_eq_true_iff s).2 hb] at hw
  exact ⟨hfault ▸ hf, hhost ▸ wellBehaved_of_false _ hw⟩

theorem neverBusyCommand_of_seqTurn {s t : State} (h : NeverBusyCommand s) (ht : seqTurn s = .next t) :
    NeverBusyCommand t := by
  by_cases hf : s.fault = none
  · by_cases hb : s.seqCmd = .none
    · rw [seqTurn_idle hf hb] at ht
      cases ht
      exact h
    · rw [seqTurn_busy hf hb] at ht
      exact (SeqMove.of_seqStep ht).neverBusyCommand hb h
  · rw [seqTurn_faulted hf] at ht
    cases ht

/-- A word issued on an idle block raises no BUSY_COMMAND, and it is not known of what comes next whether BUSY is 0. -/
theorem neverBusyCommand_of_issue {s t : State} {w : CmdWord} (hf : s.fault ≠ some .busyCommand)
    (hi : s.seqCmd = .none) (hw : wellBehaved false s.host = true) (ht : issue w s = .next t) :
    NeverBusyCommand t := by
  rcases issue_cases w s with ⟨-, he⟩ | ⟨-, code, hcode, he⟩ | ⟨-, -, i, u, -, ha, he⟩
  · rw [he] at ht
    cases ht
    exact ⟨hf, wellBehaved_of_false _ hw⟩
  · rw [he] at ht
    cases ht
    exact ⟨fun h => hcode.1 (Option.some.inj h) hi, wellBehaved_of_false _ hw⟩
  · rw [he] at ht
    cases ht
    obtain ⟨hfault, hhost, -⟩ := ha.host_side_kept
    exact ⟨hfault ▸ hf, hhost ▸ wellBehaved_of_false _ hw⟩

/-- The host's turn, move by move. -/
theorem neverBusyCommand_of_hostTurn {s t : State} {m : HostMove} {rest : List HostMove} (hh : s.host = m :: rest)
    (h : NeverBusyCommand s) (ht : hostTurn m rest s = .next t) : NeverBusyCommand t := by
  have ⟨hf, hw⟩ := h
  rw [hh] at hw
  cases m with
  | issue w =>
    obtain ⟨hidle, hrest⟩ := Bool.and_eq_true_iff.1 hw
    have hi : s.seqCmd = .none := by simpa [State.busy] using hidle
    exact neverBusyCommand_of_issue (s := { s with host := rest }) hf hi hrest ht
  | awaitIdle =>
    by_cases hb : s.busy = true
    · rw [hostTurn, if_pos hb] at ht
      exact neverBusyCommand_of_seqTurn h ht
    · rw [hostTurn, if_neg hb] at ht
      cases ht
      have hidle : (!s.busy) = true := by simp [hb]
      exact ⟨hf, (congrArg (wellBehaved · rest) hidle).trans hw⟩
  | pass =>
    by_cases he : s.seqEnabled = true
    · rw [hostTurn, if_pos he] at ht
      exact (SeqMove.of_seqStep ht).neverBusyCommand (s.seqEnabled_eq_true_iff.1 he).1 ⟨hf, hw⟩
    · rw [hostTurn, if_neg he] at ht
      cases ht
      exact ⟨hf, hw⟩
  | readStatus | readResp =>
    cases ht
    exact ⟨hf, hw⟩

/-- The moves for a word are those of a well-behaved host, whatever it knows before them (R223). -/
theorem wellBehaved_wordMoves (b : Bool) (w : CmdWord) (rest : List HostMove) :
    wellBehaved b (wordMoves w ++ rest) = wellBehaved false rest := by
  unfold wordMoves
  split <;> rfl

theorem wellBehaved_hostProgram (b : Bool) (ws : List CmdWord) : wellBehaved b (hostProgram ws) = true := by
  induction ws generalizing b with
  | nil => rfl
  | cons w ws ih => exact (wellBehaved_wordMoves b w (hostProgram ws)).trans (ih false)

/-- Settles O47: a step is a turn of the sequencer or of the host, and neither raises BUSY_COMMAND. -/
theorem wellBehavedHostNeverFaultsBusy : Obligations.WellBehavedHostNeverFaultsBusy := by
  refine ⟨fun s t hf hw hst => ?_, wellBehaved_hostProgram⟩
  cases hh : s.host with
  | nil => exact neverBusyCommand_of_seqTurn ⟨hf, hw⟩ ((step_nil hh).symm.trans hst)
  | cons m rest => exact neverBusyCommand_of_hostTurn hh ⟨hf, hw⟩ ((step_cons hh).symm.trans hst)

/-! ## The end of a run -/

/-- `s` after `k` more steps of its host, in which the values `later` were read: nothing of the block has changed. -/
def State.afterMoves (s : State) (k : Nat) (later : List HostRead) : State :=
  { s with host := s.host.drop k, reads := s.reads ++ later }

/-- The value is what the host reads of `s`: its STATUS or its RESP. -/
def ReadOf (s : State) (r : HostRead) : Prop := r = .status s.status ∨ r = .resp s.resp

theorem State.runEnded_afterMoves {s : State} (h : s.runEnded = true) (k : Nat) (later : List HostRead) :
    (s.afterMoves k later).runEnded = true := by
  obtain ⟨hw, hi, hf⟩ := s.runEnded_iff.1 h
  exact (State.runEnded_iff _).2 ⟨fun w hm => hw w (List.mem_of_mem_drop hm), hi, hf⟩

theorem State.afterMoves_afterMoves (s : State) (j k : Nat) (r r' : List HostRead) :
    (s.afterMoves j r).afterMoves k r' = s.afterMoves (j + k) (r ++ r') := by
  simp [State.afterMoves, List.drop_drop]

/-- The next step after the end of a run: the host's move is gone and the block is as it was (R197, R222). -/
theorem State.step_of_runEnded {s : State} (h : s.runEnded = true) :
    ∃ r, step s = .next (s.afterMoves 1 r) ∧ (∀ v ∈ r, ReadOf s v) ∧ (s.host = [] → r = []) := by
  obtain ⟨hw, hi, hf⟩ := s.runEnded_iff.1 h
  unfold State.afterMoves
  cases hh : s.host with
  | nil =>
    refine ⟨[], ?_, nofun, fun _ => rfl⟩
    rw [step_nil hh, seqTurn_idle hf hi, List.append_nil, List.drop_nil, ← hh]
  | cons m rest =>
    cases m with
    | issue w => exact absurd (hh ▸ List.mem_cons_self) (hw w)
    | awaitIdle => exact ⟨[], by rw [step_awaitIdle_idle hh hi, List.append_nil]; rfl, nofun, nofun⟩
    | pass => exact ⟨[], by rw [step_pass_disabled hh fun he => he.1 hi, List.append_nil]; rfl, nofun, nofun⟩
    | readStatus => exact ⟨[.status s.status], step_cons hh, fun v hv => .inl (List.mem_singleton.1 hv), nofun⟩
    | readResp => exact ⟨[.resp s.resp], step_cons hh, fun v hv => .inr (List.mem_singleton.1 hv), nofun⟩

/-- The steps after the end of a run, by induction on their number. -/
theorem State.runSteps_of_runEnded {s : State} (h : s.runEnded = true) (k : Nat) :
    ∃ later, runSteps k s = .next (s.afterMoves k later) ∧ (∀ v ∈ later, ReadOf s v) ∧
      (s.host = [] → later = []) := by
  induction k generalizing s with
  | zero => exact ⟨[], by simp [State.afterMoves], nofun, fun _ => rfl⟩
  | succ k ih =>
    obtain ⟨r, hst, hr, hr0⟩ := State.step_of_runEnded h
    obtain ⟨later, hrun, hlater, hlater0⟩ := ih (State.runEnded_afterMoves h 1 r)
    refine ⟨r ++ later, ?_, fun v hv => ?_, fun hh => ?_⟩
    · rw [runSteps_succ k hst, hrun, State.afterMoves_afterMoves, Nat.add_comm]
    · exact (List.mem_append.1 hv).elim (hr v) (hlater v)
    · rw [hr0 hh, hlater0 (by simp [State.afterMoves, hh]), List.append_nil]

/-- Settles O59: the end of a run is R222's three conditions, and each step after it takes one move off the host's
list. -/
theorem endedRunStaysEnded : Obligations.EndedRunStaysEnded := by
  refine ⟨fun s => ?_, fun s k h => ?_⟩
  · rw [s.runEnded_iff, s.status_faulted, s.faulted_eq_false_iff]
  · obtain ⟨later, hrun, hread, hnil⟩ := State.runSteps_of_runEnded h k
    exact ⟨later, hrun, State.runEnded_afterMoves h k later, hread, hnil⟩

end Sys2Proof.Machine
